-- ==== Sys2Proof/Word.lean ====
section
/-! DEFINITION. The data widths of the P800 central processor (spec/00_scope.md R9) and the names of its operands. -/

namespace Sys2Proof

/-- A word: 16 bits (R9). Source bit 0 is the most significant, that is `getLsbD 15` (R7). -/
abbrev Word := BitVec 16

/-- A character: 8 bits (R9). -/
abbrev Byte := BitVec 8

/-- The address of an external register: 8 bits (R31). -/
abbrev ExtAddr := BitVec 8

/-- The number of a general register, 0 to 15 (R20). -/
abbrev RegNum := Fin 16

end Sys2Proof
end

