-- ==== Sys2Proof/Syntax.lean ====
section
/-! DEFINITION. The fourteen rows of spec/opcode_table.json, one constructor each (spec/30_encoding.md R100, R102). -/

namespace Sys2Proof

/-- An instruction. `r2`, `r3` name general registers, `a` is the 8-bit external register address (R84), `m` the 16-bit
address of the second word (R95). In the two-word forms `r2 = 0` says that there is no index register (R96). -/
inductive Instr where
  /-- `WER r3, address`, type T8 (R111). -/
  | wer (r3 : RegNum) (a : ExtAddr)
  /-- `RER r3, address`, type T8 (R112). -/
  | rer (r3 : RegNum) (a : ExtAddr)
  /-- `TLR r2`, type T3 (R131). -/
  | tlr (r2 : RegNum)
  /-- `TL m[, r2]`, types T4 and T5 (R132). -/
  | tl (r2 : RegNum) (m : Word)
  /-- `TL* m[, r2]`, types T6 and T7 (R132). -/
  | tlInd (r2 : RegNum) (m : Word)
  /-- `TSR r2`, type T3 (R133). -/
  | tsr (r2 : RegNum)
  /-- `TS m[, r2]`, types T4 and T5 (R134). -/
  | ts (r2 : RegNum) (m : Word)
  /-- `TS* m[, r2]`, types T6 and T7 (R134). -/
  | tsInd (r2 : RegNum) (m : Word)
  /-- `FLDR r2`, type T3 (R152). -/
  | fldr (r2 : RegNum)
  /-- `FLD m[, r2]`, types T4 and T5 (R153). -/
  | fld (r2 : RegNum) (m : Word)
  /-- `FLD* m[, r2]`, types T6 and T7 (R153). -/
  | fldInd (r2 : RegNum) (m : Word)
  /-- `FSTR r2`, type T3 (R154). -/
  | fstr (r2 : RegNum)
  /-- `FST m[, r2]`, types T4 and T5 (R155). -/
  | fst (r2 : RegNum) (m : Word)
  /-- `FST* m[, r2]`, types T6 and T7 (R155). -/
  | fstInd (r2 : RegNum) (m : Word)
  deriving DecidableEq, Repr

end Sys2Proof
end

