-- ==== Sys2Proof/Config.lean ====
section
/-! DEFINITION. The parameters of spec/00_scope.md R6 as plain data, and the free values: opaque constants about which
nothing can be proved (spec/10_state.md R33, spec/20_memory.md R66, spec/42_floating_point_transfer.md R151, R156).

DESIGN CHOICE (log 1, safe): the parameters are one field of the state that no step writes, so a statement about every state
holds for every configuration. -/

namespace Sys2Proof

/-- The four models of the family (R1). -/
inductive Model where
  | p851m | p852m | p856m | p857m
  deriving DecidableEq, Repr

/-- The two modes (R27). -/
inductive Mode where
  | system | user
  deriving DecidableEq, Repr

/-- What an access is made for: the argument `kind` of `Translate` (R58). -/
inductive AccessKind where
  | fetch | read | write
  deriving DecidableEq, Repr

/-- The class of a floating-point operand (R151). -/
inductive FpClass where
  /-- "floating point operand = 0" -/
  | zero
  /-- "floating point operand > 0" -/
  | positive
  /-- "floating point operand < 0" -/
  | negative
  /-- "unnormalized operand (operation aborted)" -/
  | unnormalized
  deriving DecidableEq, Repr, Inhabited

/-- A run of consecutive addresses; a set of addresses is a list of them. -/
structure Span where
  first : Nat
  size : Nat
  deriving DecidableEq, Repr

/-- One value of the parameter `Translate`: the answer for one content of TR0–TR15, mode, address and kind of access (R58);
`none` is a translation fault. -/
structure TranslateRow where
  tr : Vector Word 16
  mode : Mode
  addr : Word
  kind : AccessKind
  answer : Option Nat
  deriving DecidableEq, Repr

/-- One value of the parameter `FpClass`: the class of the operand whose three words, FPA1 first, are `operand` (R151). -/
structure FpClassRow where
  operand : Vector Word 3
  fpClass : FpClass
  deriving DecidableEq, Repr

/-- One value of the parameter `IopFootprint`: the physical character addresses the I/O Processors may write once these control
words, with the addresses they were sent to, have been delivered in this order (R6, R66). -/
structure FootprintRow where
  controlWords : List (ExtAddr × Word)
  covers : List Span
  deriving DecidableEq, Repr

/-- The parameter `IopFootprint` (R6): the two readings that R66 offers, and any other. -/
inductive Footprint where
  /-- the safe default: "all of memory, whatever the control words say" -/
  | allOfMemory
  /-- the narrow reading of the control words, a marked assumption (log 12) -/
  | narrow
  /-- any function of the control words, as a table over an opaque constant (log 35) -/
  | listed (table : List FootprintRow)
  deriving DecidableEq, Repr

/-- The open bit patterns of spec/30_encoding.md. `r3Field` marks which bits of the high byte of a T8 word (source bits 0–7)
form r3 (R85); the other bits of the high byte are `werHi` or `rerHi`; `rerBit8` is `none` where source bit 8 of RER is free
(R86); the nine-bit strings are source bits 0–8 of a long first word (R91, R93, R94). -/
structure Encoding where
  r3Field : BitVec 8
  werHi : BitVec 8
  rerHi : BitVec 8
  rerBit8 : Option Bool
  tlB0to8 : BitVec 9
  tlB15 : Bool
  fpB0to8 : BitVec 9
  fstB0to8 : BitVec 9
  fstB15 : Bool
  deriving DecidableEq, Repr

/-- The configuration of R6. `IOP_MAX` is computed from the model; `END` is an argument of `RunOver`. -/
structure Config where
  model : Model
  hasMmu : Bool
  hasFfp : Bool
  fpSystemOnly : Bool
  /-- the external register addresses that answer (`ExtPresent`) -/
  extPresent : List Span
  /-- the physical character addresses that hold memory (`MEM_PRESENT`) -/
  memPresent : List Span
  /-- `Translate` (log 7) -/
  translation : List TranslateRow
  /-- `FpClass` (log 8) -/
  fpClasses : List FpClassRow
  /-- the physical character addresses of the words the launch declares as code (R36, R64) -/
  programText : List Span
  footprint : Footprint
  encoding : Encoding
  deriving DecidableEq, Repr

/-- `draw(16)` for the `n`-th draw of a run, answering a read of the external register at `a` (R33). Free value, log 9. -/
opaque Config.extReadValue (a : ExtAddr) (n : Nat) : Word

/-- `draw(16)` for accumulator `k` (0, 1, 2) after an aborted load, the `n`-th draw of a run (R156). Free value, log 10. -/
opaque Config.abortedAccumulator (k n : Nat) : Word

/-- The class of an operand for which the configuration lists none (R151). Free value, log 8. -/
opaque Config.unlistedClass (operand : Vector Word 3) : FpClass

/-- The footprint after control words for which the configuration lists none (R66). Free value, log 35. -/
opaque Config.unlistedFootprint (controlWords : List (ExtAddr × Word)) (p : Nat) : Bool

/-- What the I/O Processors try to write in their `n`-th turn of a run, in order (R66). Free value, log 11. -/
opaque Config.ioWrites (n : Nat) : List (Nat × Byte)

end Sys2Proof
end

