-- ==== Sys2Proof/Machine/Bits.lean ====
section
/-! DEFINITION. Bit fields and the order of characters in a word (spec/00_scope.md R8, spec/20_memory.md R51). -/

namespace Sys2Proof

/-- The left hand character of a word: source bits 0–7 (R51; the order is the spec's decision D12, log 16). -/
def leftChar (w : Word) : Byte := w.extractLsb' 8 8

/-- The right hand character of a word: source bits 8–15 (R51). -/
def rightChar (w : Word) : Byte := w.extractLsb' 0 8

/-- The word with the given left and right hand characters. -/
def joinChars (l r : Byte) : Word := l ++ r

/-- The two characters of a word in ascending order of address (R51). -/
def wordChars (w : Word) : List Byte := [leftChar w, rightChar w]

/-- Source bit 8 of a WER address is 0 (spec/30_encoding.md R86). -/
def werBit8Clear (a : ExtAddr) : Bool := !a.getLsbD 7

/-- How many of the lowest `n` bits of `mask` are set. -/
def maskCount (mask : BitVec 8) : Nat → Nat
  | 0 => 0
  | n + 1 => maskCount mask n + (if mask.getLsbD n then 1 else 0)

/-- The number that the bits of `x` under `mask` form, the highest marked bit most significant; the lowest `n` bits only. -/
def gatherBits (mask x : BitVec 8) : Nat → Nat
  | 0 => 0
  | n + 1 => gatherBits mask x n + (if mask.getLsbD n && x.getLsbD n then 2 ^ maskCount mask n else 0)

/-- The lowest `n` bits of the byte whose bits under `mask` hold the number `v`; its other bits are 0. -/
def scatterBits (mask : BitVec 8) (v : Nat) : Nat → BitVec 8
  | 0 => 0#8
  | n + 1 =>
    scatterBits mask v n |||
      (if mask.getLsbD n && v.testBit (maskCount mask n) then BitVec.twoPow 8 n else 0#8)

end Sys2Proof
end

