-- ==== Sys2Proof/WellFormed.lean ====
section
/-! DEFINITION. The operand constraints the source states as obligations on the programmer, as far as they depend on the
instruction alone (spec/30_encoding.md R98 (a), (b), (d)). The I/O Processor number of a WER is bounded by the model of the
machine (R98 (c)) and is checked where the instruction runs. -/

namespace Sys2Proof

/-- The instruction keeps the constraints of R98 (a), (b) and (d): `r3 ≠ 0` for WER and RER, bit 8 = 0 for WER, `r2 ≠ 0` for
the T3 forms. The two-word forms have no constraint. -/
def Instr.wellFormed : Instr → Bool
  | .wer r3 a => r3 != 0 && werBit8Clear a
  | .rer r3 _ => r3 != 0
  | .tlr r2 => r2 != 0
  | .tl _ _ => true
  | .tlInd _ _ => true
  | .tsr r2 => r2 != 0
  | .ts _ _ => true
  | .tsInd _ _ => true
  | .fldr r2 => r2 != 0
  | .fld _ _ => true
  | .fldInd _ _ => true
  | .fstr r2 => r2 != 0
  | .fst _ _ => true
  | .fstInd _ _ => true

end Sys2Proof
end

