-- ==== Sys2Proof/Decode.lean ====
section
/-! DEFINITION. Decoding (spec/30_encoding.md R80–R99) over the rows of spec/opcode_table.json instantiated with the open
parameters, then the encoder written from the same rows, and the parameter values the launch of this model takes (log 4). -/

namespace Sys2Proof

/-- The row of spec/opcode_table.json an instruction belongs to. -/
inductive Op where
  | wer | rer | tlr | tl | tlInd | tsr | ts | tsInd | fldr | fld | fldInd | fstr | fst | fstInd
  deriving DecidableEq, Repr

/-- The instructions of two words are the forms with MD = 10 or 11 (R80, R99). -/
def Op.twoWords : Op → Bool
  | .tl | .tlInd | .ts | .tsInd | .fld | .fldInd | .fst | .fstInd => true
  | .wer | .rer | .tlr | .tsr | .fldr | .fstr => false

/-- The row an instruction belongs to. -/
def Instr.op : Instr → Op
  | .wer _ _ => .wer
  | .rer _ _ => .rer
  | .tlr _ => .tlr
  | .tl _ _ => .tl
  | .tlInd _ _ => .tlInd
  | .tsr _ => .tsr
  | .ts _ _ => .ts
  | .tsInd _ _ => .tsInd
  | .fldr _ => .fldr
  | .fld _ _ => .fld
  | .fldInd _ _ => .fldInd
  | .fstr _ => .fstr
  | .fst _ _ => .fst
  | .fstInd _ _ => .fstInd

/-- The length of an instruction in characters: 2 or 4 (R25, R80). -/
def Instr.length (i : Instr) : Nat := if i.op.twoWords then 4 else 2

/-- A row of the opcode table: a first word `w` belongs to it if `w &&& mask = pattern`. -/
structure Row where
  op : Op
  mask : Word
  pattern : Word
  deriving DecidableEq, Repr

/-- The first word belongs to the row. -/
def Row.matchesWord (r : Row) (w : Word) : Bool := w &&& r.mask == r.pattern

/-- No first word belongs to both rows. -/
def Row.disjointFrom (r q : Row) : Bool := (r.pattern ^^^ q.pattern) &&& r.mask &&& q.mask != 0#16

/-- A long first word (R81): source bits 0–8, MD (R83), r2 (R82), source bit 15. -/
def longWord (hi : BitVec 9) (md : BitVec 2) (r2 : BitVec 4) (b15 : Bool) : Word :=
  hi ++ md ++ r2 ++ BitVec.ofBool b15

/-- A short first word (R84): the high byte, then the external register address. -/
def shortWord (hi : BitVec 8) (a : ExtAddr) : Word := hi ++ a

/-- The mask of a long row: every bit but those of r2. -/
def longMask : Word := 0xFFE1#16

/-- Source bits 0–8 of TSR and TS: `1 0111 0000` (R88, R89). -/
def tsB0to8 : BitVec 9 := 0b101110000#9

/-- A row of the long format. -/
def longRow (op : Op) (hi : BitVec 9) (md : BitVec 2) (b15 : Bool) : Row :=
  ⟨op, longMask, longWord hi md 0#4 b15⟩

/-- The row of WER: its high byte outside r3, and source bit 8 = 0 (R85, R86). -/
def werRow (e : Encoding) : Row := ⟨.wer, shortWord (~~~e.r3Field) 0x80#8, shortWord e.werHi 0#8⟩

/-- The row of RER: its high byte outside r3, and source bit 8 where the parameter fixes it (R85, R86). -/
def rerRow (e : Encoding) : Row :=
  match e.rerBit8 with
  | none => ⟨.rer, shortWord (~~~e.r3Field) 0#8, shortWord e.rerHi 0#8⟩
  | some b => ⟨.rer, shortWord (~~~e.r3Field) 0x80#8, shortWord e.rerHi (if b then 0x80#8 else 0#8)⟩

/-- The fourteen rows, in the order of spec/opcode_table.json, instantiated with the parameters (R99, R102). -/
def rows (e : Encoding) : List Row :=
  [werRow e, rerRow e,
   longRow .tlr e.tlB0to8 0b01#2 e.tlB15, longRow .tl e.tlB0to8 0b10#2 e.tlB15, longRow .tlInd e.tlB0to8 0b11#2 e.tlB15,
   longRow .tsr tsB0to8 0b01#2 true, longRow .ts tsB0to8 0b10#2 true, longRow .tsInd tsB0to8 0b11#2 true,
   longRow .fldr e.fpB0to8 0b01#2 false, longRow .fld e.fpB0to8 0b10#2 false, longRow .fldInd e.fpB0to8 0b11#2 false,
   longRow .fstr e.fstB0to8 0b01#2 e.fstB15, longRow .fst e.fstB0to8 0b10#2 e.fstB15,
   longRow .fstInd e.fstB0to8 0b11#2 e.fstB15]

/-- The ten candidates for source bits 0–8 of FLDR and FLD (R93). -/
def fpCandidates : List (BitVec 9) :=
  [0b111000010#9, 0b110100010#9, 0b110010010#9, 0b110001010#9, 0b110000110#9, 0b110000101#9,
   0b011000010#9, 0b101000010#9, 0b110000010#9, 0b110000100#9]

/-- The rows are pairwise disjoint (R99: "the rows are disjoint provided the parameters are"). -/
def Encoding.disjoint (e : Encoding) : Bool :=
  decide ((rows e).Pairwise fun r q => r.disjointFrom q = true)

/-- The parameter values are ones the spec admits: r3 names at least registers 1 and 2 and at most sixteen registers (R85, R20),
its bits are not bits of the operation code, FLD has one of the ten candidates (R93), and the rows are disjoint (R99). -/
def Encoding.valid (e : Encoding) : Bool :=
  decide (2 ≤ maskCount e.r3Field 8) && decide (maskCount e.r3Field 8 ≤ 4) &&
  (e.werHi &&& e.r3Field == 0#8) && (e.rerHi &&& e.r3Field == 0#8) &&
  decide (e.fpB0to8 ∈ fpCandidates) && e.disjoint

/-- Why bytes are no instruction. -/
inductive Reject where
  /-- fewer bytes than the instruction has -/
  | truncated
  /-- the WER pattern with source bit 8 = 1 (R98 (b)) -/
  | werBit8
  /-- a long pattern with MD = 00 (R98 (e)) -/
  | mdZero
  /-- no other word is one of the ten instructions (R98 (f)) -/
  | notInScope
  deriving DecidableEq, Repr

/-- The row a first word belongs to. -/
def findRow (e : Encoding) (w : Word) : Option Row := (rows e).find? (·.matchesWord w)

/-- Is the word the TL, TS, FLD or FST pattern with MD = 00 (R98 (e))? -/
def isMdZero (e : Encoding) (w : Word) : Bool :=
  [longWord e.tlB0to8 0#2 0#4 e.tlB15, longWord tsB0to8 0#2 0#4 true, longWord e.fpB0to8 0#2 0#4 false,
   longWord e.fstB0to8 0#2 0#4 e.fstB15].any (w &&& longMask == ·)

/-- Is the word the WER pattern with source bit 8 = 1 (R98 (b))? -/
def isWerBit8 (e : Encoding) (w : Word) : Bool :=
  w &&& shortWord (~~~e.r3Field) 0x80#8 == shortWord e.werHi 0x80#8

/-- The name under which a first word of no row is rejected (R98). -/
def rejectWord (e : Encoding) (w : Word) : Reject :=
  if isWerBit8 e w then .werBit8 else if isMdZero e w then .mdZero else .notInScope

/-- The field r2: source bits 11–14 (R82). -/
def r2Of (w : Word) : RegNum := (w.extractLsb' 1 4).toFin

/-- The field r3 of a T8 word (R85). -/
def r3Of (e : Encoding) (w : Word) : RegNum := Fin.ofNat 16 (gatherBits e.r3Field (leftChar w) 8)

/-- The instruction of a row from its first word and, in the two-word forms, its second (R84, R95). -/
def build (e : Encoding) (op : Op) (w m : Word) : Instr :=
  match op with
  | .wer => .wer (r3Of e w) (rightChar w)
  | .rer => .rer (r3Of e w) (rightChar w)
  | .tlr => .tlr (r2Of w)
  | .tl => .tl (r2Of w) m
  | .tlInd => .tlInd (r2Of w) m
  | .tsr => .tsr (r2Of w)
  | .ts => .ts (r2Of w) m
  | .tsInd => .tsInd (r2Of w) m
  | .fldr => .fldr (r2Of w)
  | .fld => .fld (r2Of w) m
  | .fldInd => .fldInd (r2Of w) m
  | .fstr => .fstr (r2Of w)
  | .fst => .fst (r2Of w) m
  | .fstInd => .fstInd (r2Of w) m

/-- The first word alone says that a second one follows (R99). -/
def needsSecondWord (e : Encoding) (w : Word) : Bool :=
  match findRow e w with
  | some r => r.op.twoWords
  | none => false

/-- Decode the instruction at the head of a list of bytes and give the rest of the list. -/
def decode (e : Encoding) : List Byte → Except Reject (Instr × List Byte)
  | c0 :: c1 :: rest =>
    let w := joinChars c0 c1
    match findRow e w with
    | none => .error (rejectWord e w)
    | some r =>
      if r.op.twoWords then
        match rest with
        | c2 :: c3 :: rest' => .ok (build e r.op w (joinChars c2 c3), rest')
        | _ => .error .truncated
      else .ok (build e r.op w 0#16, rest)
  | _ => .error .truncated

/-- The high byte of a T8 word: the operation code and r3 scattered over its field (R85). -/
def shortHi (e : Encoding) (hi : BitVec 8) (r3 : RegNum) : BitVec 8 := hi ||| scatterBits e.r3Field r3.val 8

/-- The words of an instruction (R84, R88, R89, R91, R93, R94, R95). -/
def encode (e : Encoding) : Instr → List Word
  | .wer r3 a => [shortWord (shortHi e e.werHi r3) a]
  | .rer r3 a => [shortWord (shortHi e e.rerHi r3) a]
  | .tlr r2 => [longWord e.tlB0to8 0b01#2 (BitVec.ofFin r2) e.tlB15]
  | .tl r2 m => [longWord e.tlB0to8 0b10#2 (BitVec.ofFin r2) e.tlB15, m]
  | .tlInd r2 m => [longWord e.tlB0to8 0b11#2 (BitVec.ofFin r2) e.tlB15, m]
  | .tsr r2 => [longWord tsB0to8 0b01#2 (BitVec.ofFin r2) true]
  | .ts r2 m => [longWord tsB0to8 0b10#2 (BitVec.ofFin r2) true, m]
  | .tsInd r2 m => [longWord tsB0to8 0b11#2 (BitVec.ofFin r2) true, m]
  | .fldr r2 => [longWord e.fpB0to8 0b01#2 (BitVec.ofFin r2) false]
  | .fld r2 m => [longWord e.fpB0to8 0b10#2 (BitVec.ofFin r2) false, m]
  | .fldInd r2 m => [longWord e.fpB0to8 0b11#2 (BitVec.ofFin r2) false, m]
  | .fstr r2 => [longWord e.fstB0to8 0b01#2 (BitVec.ofFin r2) e.fstB15]
  | .fst r2 m => [longWord e.fstB0to8 0b10#2 (BitVec.ofFin r2) e.fstB15, m]
  | .fstInd r2 m => [longWord e.fstB0to8 0b11#2 (BitVec.ofFin r2) e.fstB15, m]

/-- The bytes of an instruction in ascending order of address. -/
def encodeBytes (e : Encoding) (i : Instr) : List Byte := (encode e i).flatMap wordChars

/-- The encoding has a word for the instruction: r3 fits R3_FIELD, and the address of a RER or WER agrees with a fixed
source bit 8 (R85, R86). -/
def Encoding.admits (e : Encoding) : Instr → Bool
  | .wer r3 a => decide (r3.val < 2 ^ maskCount e.r3Field 8) && werBit8Clear a
  | .rer r3 a =>
    decide (r3.val < 2 ^ maskCount e.r3Field 8) &&
      (match e.rerBit8 with
        | none => true
        | some b => a.getLsbD 7 == b)
  | .tlr _ | .tl _ _ | .tlInd _ _ | .tsr _ | .ts _ _ | .tsInd _ _ => true
  | .fldr _ | .fld _ _ | .fldInd _ _ | .fstr _ | .fst _ _ | .fstInd _ _ => true

/-- The parameter values this model is launched with. PRESUMED (log 4, unsafe): the spec gives none of them. The T8 layout
`0 cccc rrr aaaaaaaa` is R85's general-knowledge passage G6, its two codes 1110 and 1111 are UNVERIFIED; TL is TS with bit 15
cleared (the candidate of R91); FLD is the candidate 110000010 of R93; FST is FLD with bit 15 set (the candidate of R94). No
statement rests on these values: decoding takes them as an argument. -/
def launchEncoding : Encoding where
  r3Field := 0b00000111#8
  werHi := 0b01110000#8
  rerHi := 0b01111000#8
  rerBit8 := none
  tlB0to8 := 0b101110000#9
  tlB15 := false
  fpB0to8 := 0b110000010#9
  fstB0to8 := 0b110000010#9
  fstB15 := true

/-- The bytes of an instruction given as one number: the first word in bits 15..0, the second in bits 31..16; the bits from
`nbits` on are 0. -/
def tableBytes (nbits w : Nat) : List Byte :=
  let v := w % 2 ^ nbits
  wordChars (BitVec.ofNat 16 v) ++ wordChars (BitVec.ofNat 16 (v / 2 ^ 16))

/-- The instruction the decoder reads, under the launch's encoding, from the bits `w` of a row of the opcode table. -/
def decodeTableWord (nbits w : Nat) : Option Instr :=
  match decode launchEncoding (tableBytes nbits w) with
  | .ok (i, _) => some i
  | .error _ => none

end Sys2Proof
end

