-- ==== Sys2Proof/Machine/Launch.lean ====
section
/-! DEFINITION. The configuration of the machine right after reset. The spec gives none: every value here is named in log 3,
log 4, log 7, log 8, log 11 and log 23, and no statement rests on one. -/

namespace Sys2Proof.Machine

/-- A P857M with both options, every external register address answering, and 128K words of physical memory (the reach of an
I/O Processor, spec/20_memory.md R67). DESIGN CHOICE (log 3, unsafe). `Translate` has no listed row (log 7), `FpClass` none
(log 8), nothing is declared as program text (log 34), `IopFootprint` is the safe default of R66 (log 11), `FP_SYSTEM_ONLY` is false
(R6, the spec's decision D17). -/
def launchConfig : Config where
  model := .p857m
  hasMmu := true
  hasFfp := true
  fpSystemOnly := false
  extPresent := [⟨0, 256⟩]
  memPresent := [⟨0, 0x40000⟩]
  translation := []
  fpClasses := []
  programText := []
  footprint := .allOfMemory
  encoding := launchEncoding

end Sys2Proof.Machine
end

