-- ==== Sys2Proof/Machine/Memory.lean ====
section
/-! DEFINITION. Physical memory: characters by address (spec/20_memory.md R50), in one canonical form.

An address that is not listed holds no value: nothing has written it, and reading it is a fault (spec/10_state.md R35,
spec/93_implementation_defined.md U19; log 5). -/

namespace Sys2Proof.Machine

/-- Memory: (address, character) pairs. -/
abbrev Memory := List Host.Cell

/-- The canonical form: addresses strictly rising. An unlisted address has no value, so no entry can equal it. -/
abbrev Memory.wf (m : Memory) : Prop := m.Pairwise fun c d => c.1 < d.1

/-- The character at a physical address; `none` where nothing has been written. -/
def Memory.readByte : Memory → Nat → Option Byte
  | [], _ => none
  | (k, v) :: rest, a => if k = a then some v else Memory.readByte rest a

/-- Replace the character at a physical address. -/
def Memory.writeByte : Memory → Nat → Byte → Memory
  | [], a, v => [(a, v)]
  | (k, u) :: rest, a, v =>
    if a < k then (a, v) :: (k, u) :: rest
    else if a = k then (a, v) :: rest
    else (k, u) :: Memory.writeByte rest a v

/-- The word at a physical address: `M[p] ∥ M[p+1]`, `M[p]` in bits 0–7 (R53). -/
def Memory.readWord (m : Memory) (p : Nat) : Option Word :=
  match m.readByte p, m.readByte (p + 1) with
  | some l, some r => some (joinChars l r)
  | _, _ => none

/-- Replace the word at a physical address: `M[p] <- v<0:7>`, `M[p+1] <- v<8:15>` (R54). -/
def Memory.writeWord (m : Memory) (p : Nat) (v : Word) : Memory :=
  (m.writeByte p (leftChar v)).writeByte (p + 1) (rightChar v)

end Sys2Proof.Machine
end

