-- ==== Sys2Proof/Machine/State.lean ====
section
/-! DEFINITION. The state of one central processor and of the units its instructions reach (spec/10_state.md R20–R36), the
reasons a step can stop (spec/60_exceptions.md R171, R172), and the state after reset. -/

namespace Sys2Proof.Machine

/-- An entry of the event history (R32, R33, spec/20_memory.md R53, R54). Memory events carry the physical address. -/
inductive Event where
  /-- `Read(cpu, p, 2, value)` -/
  | read (p : Nat) (v : Word)
  /-- `Write(cpu, p, 2, v)` -/
  | write (p : Nat) (v : Word)
  /-- `ExtWrite(a, v)` -/
  | extWrite (a : ExtAddr) (v : Word)
  /-- `ExtRead(a, v)` -/
  | extRead (a : ExtAddr) (v : Word)
  deriving DecidableEq, Repr

/-- A fault: the chip does something here that the source does not describe; the model stops (R170). -/
inductive Fault where
  /-- WER, RER, TLR, TL, TSR, TS outside system mode (and FLDR, FLD, FSTR, FST if FP_SYSTEM_ONLY), R172. Safe: the run stops. -/
  | privilegeViolation (pc : Word)
  /-- an instruction of an option the machine has not, R172. Safe: the run stops. -/
  | notInstalled (pc : Word)
  /-- `Translate` answers a fault for this address, R172. Safe: the run stops. -/
  | addressFault (addr : Word)
  /-- a read or fetch of a word at this physical address of which a character has never been written
  (spec/93_implementation_defined.md U19; log 5). Safe: the run stops. -/
  | unwrittenMemory (p : Nat)
  deriving DecidableEq, Repr

/-- A refusal: the spec gives the instruction no meaning (R171). Each is safe: nothing is proved of a run that contains one. -/
inductive Refusal where
  /-- `exec`, for an instruction whose meaning is not written. Safe: the run stops. No arm of this model raises it. -/
  | notModelled (mnemonic : String)
  /-- WER or RER with r3 = 0, spec/30_encoding.md R98 (a). Safe: the run stops. -/
  | r3Zero
  /-- WER with source bit 8 = 1, R98 (b). Safe: the run stops. -/
  | werBit8
  /-- WER to an I/O Processor number above IOP_MAX, R98 (c). Safe: the run stops. -/
  | iopNumber
  /-- a T3 form with r2 = 0, R98 (d). Safe: the run stops. -/
  | r2ZeroT3
  /-- a long pattern with MD = 00, R98 (e). Safe: the run stops. -/
  | mdZero
  /-- any other word, R98 (f). Safe: the run stops. -/
  | notInScope
  /-- a two-word instruction at 0xFFFE, R99. Safe: the run stops. -/
  | pcWrap
  /-- a word access at an odd address, spec/20_memory.md R52. Safe: the run stops. -/
  | oddAddress
  /-- an access outside MEM_PRESENT, R59. Safe: the run stops. -/
  | noMemory
  /-- a store into the program text, R64. Safe: the run stops. -/
  | storeIntoCode
  /-- WER or RER to an address outside ExtPresent, spec/40_external_transfer.md R110. Safe: the run stops. -/
  | noExternalRegister
  deriving DecidableEq, Repr

/-- The state. `draws` and `ioTurns` are the model's own counters, which index the free values (log 33). -/
structure State where
  /-- the general registers (R20) -/
  x : Vector Word 16
  /-- the program counter (R24) -/
  pc : Word
  /-- the condition register CR (R26) -/
  cr : BitVec 2
  /-- the mode (R27) -/
  mode : Mode
  /-- TR0 to TR15 (R29) -/
  tr : Vector Word 16
  /-- FPA1, FPA2, FPA3 (R30) -/
  fpa : Vector Word 3
  /-- physical memory (R50) -/
  mem : Memory
  /-- the event history, oldest first (R32) -/
  events : List Event
  /-- how many draws have been taken -/
  draws : Nat
  /-- how many I/O Processor turns have been taken -/
  ioTurns : Nat
  /-- the parameters of spec/00_scope.md R6, which no step writes (log 1) -/
  config : Config
  deriving DecidableEq, Repr

/-- The machine right after reset. The spec gives no reset value for anything (R35, spec/70_reset_and_hazards.md R190): the
registers are 0 and the mode is system by DESIGN CHOICE (log 2, unsafe), the configuration is that of log 3, the history is
empty (log 30), memory lists nothing, and a character that nothing has written has no value (log 5). -/
def State.reset : State where
  x := Vector.replicate 16 0#16
  pc := 0x0000#16
  cr := 0#2
  mode := .system
  tr := Vector.replicate 16 0#16
  fpa := Vector.replicate 3 0#16
  mem := []
  events := []
  draws := 0
  ioTurns := 0
  config := launchConfig

end Sys2Proof.Machine
end

