-- ==== Sys2Proof/Machine/Ops.lean ====
section
/-! DEFINITION. The operations the meanings share: raising a fault and refusing (spec/60_exceptions.md R170, R171), registers,
address translation and presence, word accesses to memory, external registers, the turns of the I/O Processors, block
transfers, and the bytes of an instruction (spec/20_memory.md R52–R68, spec/10_state.md R32, R33).

There is no trap entry and no trap return to model: R175 and R176 say that the spec has none, and R170 makes every fault
terminal. `raise` is the one operation through which a fault is taken. -/

namespace Sys2Proof.Machine

/-- The two ways a step can end without a next state (R170). -/
inductive Stop where
  | fault (f : Fault)
  | refusal (r : Refusal)
  deriving DecidableEq, Repr

/-- What an operation answers: a value, or the reason the step ends. -/
abbrev Result (α : Type) := Except Stop α

/-- `raise F(info)`: the step ends in the fault; no state is written (R170). -/
def raise {α : Type} (f : Fault) : Result α := .error (.fault f)

/-- `refuse(reason)`: the spec gives the instruction no meaning (R171). -/
def refuse {α : Type} (r : Refusal) : Result α := .error (.refusal r)

/-- Go on if the check holds, else stop. -/
def require (b : Bool) (stop : Stop) : Result Unit := if b then .ok () else .error stop

/-- The outcome of a step that stops. -/
def Stop.outcome : Stop → Host.Outcome State Fault Refusal
  | .fault f => .fault f
  | .refusal r => .refused r

/-- The outcome of a step from what its operations answer. -/
def finish : Result State → Host.Outcome State Fault Refusal
  | .ok s => .next s
  | .error stop => stop.outcome

/-! ## Registers -/

/-- `x[r]` (R11). -/
def State.reg (s : State) (r : RegNum) : Word := s.x[r.val]

/-- `x[r] <- v` (R11). -/
def State.setReg (s : State) (r : RegNum) (v : Word) : State := { s with x := s.x.set r.val v }

/-- `CR <- v` (R11). -/
def State.setCr (s : State) (v : BitVec 2) : State := { s with cr := v }

/-- `TR[0..15] <- v` (R29: written all at once). -/
def State.setTr (s : State) (v : Vector Word 16) : State := { s with tr := v }

/-- `FPA[1..3] <- v` (R30: written all at once). -/
def State.setFpa (s : State) (v : Vector Word 3) : State := { s with fpa := v }

/-- Replace memory. -/
def State.setMem (s : State) (m : Memory) : State := { s with mem := m }

/-- Add an event at the end of the history (R32). -/
def State.record (s : State) (ev : Event) : State := { s with events := s.events ++ [ev] }

/-- One draw has been taken. -/
def State.countDraw (s : State) : State := { s with draws := s.draws + 1 }

/-- `pc <- pc +16 len` (R25). -/
def State.advance (s : State) (len : Word) : State := { s with pc := s.pc + len }

/-! ## Addresses -/

/-- The address is in the set. -/
def inSpans (spans : List Span) (a : Nat) : Bool := spans.any fun sp => sp.first ≤ a && a < sp.first + sp.size

/-- The character address is even: source bit 15 is 0 (R50). -/
def isEven (a : Word) : Bool := !a.getLsbD 0

/-- `Translate(TR, mode, addr, kind)` (R58): the identity without the MMU; with it, the parameter: the listed answer, and the
address itself where the table lists none (DESIGN CHOICE, log 7: every total function is the meaning of some table). -/
def translate (c : Config) (tr : Vector Word 16) (mode : Mode) (addr : Word) (kind : AccessKind) : Option Nat :=
  if c.hasMmu then
    match c.translation.find? fun row =>
        row.tr == tr && row.mode == mode && row.addr == addr && row.kind == kind with
    | some row => row.answer
    | none => some addr.toNat
  else some addr.toNat

/-- Both characters of the word at a physical address are in `MEM_PRESENT` (R53, R59; log 20). -/
def wordPresent (c : Config) (p : Nat) : Bool := inSpans c.memPresent p && inSpans c.memPresent (p + 1)

/-- A character of the word at a physical address is declared as program text (R64; log 20). -/
def wordInText (c : Config) (p : Nat) : Bool := inSpans c.programText p || inSpans c.programText (p + 1)

/-- The physical address of a word access: an odd address is refused (R52), then the address is translated (R58), then
presence is checked (R53, R59). -/
def physical (s : State) (addr : Word) (kind : AccessKind) : Result Nat := do
  require (isEven addr) (.refusal .oddAddress)
  match translate s.config s.tr s.mode addr kind with
  | none => raise (.addressFault addr)
  | some p =>
    require (wordPresent s.config p) (.refusal .noMemory)
    .ok p

/-- The word at a physical address; a character that nothing has written has no value (log 5). -/
def readPhysical (s : State) (p : Nat) : Result Word :=
  match s.mem.readWord p with
  | none => raise (.unwrittenMemory p)
  | some v => .ok v

/-- `MemRead(addr, 2)` (R53): the word, and the state with the event recorded. -/
def memRead (s : State) (addr : Word) : Result (Word × State) := do
  let p ← physical s addr .read
  let v ← readPhysical s p
  .ok (v, s.record (.read p v))

/-- `MemWrite(addr, 2, v)` (R54); a store into the program text is refused (R64). -/
def memWrite (s : State) (addr : Word) (v : Word) : Result State := do
  let p ← physical s addr .write
  require (!wordInText s.config p) (.refusal .storeIntoCode)
  .ok ((s.setMem (s.mem.writeWord p v)).record (.write p v))

/-! ## External registers -/

/-- `ExtWrite(a, v)` (R32): an event; no state of the central processor changes. -/
def extWrite (s : State) (a : ExtAddr) (v : Word) : State := s.record (.extWrite a v)

/-- `ExtRead(a)` (R33): a draw (free value, log 9), and the state with the event recorded. -/
def extRead (s : State) (a : ExtAddr) : Word × State :=
  let v := Config.extReadValue a s.draws
  (v, (s.record (.extRead a v)).countDraw)

/-- The address answers: it is in `ExtPresent` (R110). -/
def extAnswers (c : Config) (a : ExtAddr) : Bool := inSpans c.extPresent a.toNat

/-- The I/O Processor number of a WER address: source bits 9–11 (spec/30_encoding.md R87). -/
def iopNumberOf (a : ExtAddr) : Nat := (a.extractLsb' 4 3).toNat

/-- The device address of a WER address: source bits 12–14 (R87). -/
def deviceOf (a : ExtAddr) : Nat := (a.extractLsb' 1 3).toNat

/-- A WER address selects the 2nd control word: source bit 15 (R87). -/
def isSecondWord (a : ExtAddr) : Bool := a.getLsbD 0

/-- `IOP_MAX` (spec/00_scope.md R6). -/
def iopMax : Model → Nat
  | .p851m => 0
  | .p852m | .p856m | .p857m => 7

/-! ## The I/O Processors -/

/-- `cw1<0>`: word mode, else char. mode (spec/40_external_transfer.md R115). -/
def cw1WordMode (cw1 : Word) : Bool := cw1.getLsbD 15

/-- `cw1<1>`: the transfer is MEM → CU, else CU → MEM (R115; the source's example contradicts the polarity,
spec/90_conflicts.md C2). -/
def cw1FromMemory (cw1 : Word) : Bool := cw1.getLsbD 14

/-- `cw1<2:3>`: the address extension (R115). -/
def cw1Extension (cw1 : Word) : BitVec 2 := cw1.extractLsb' 12 2

/-- `cw1<4:15>`: the transfer length in characters or words (R115). -/
def cw1Length (cw1 : Word) : Nat := (cw1.extractLsb' 0 12).toNat

/-- `cw2<0:14>`: the word address (R116). -/
def cw2WordAddress (cw2 : Word) : BitVec 15 := cw2.extractLsb' 1 15

/-- `cw2<15>`: in char. mode, the right hand character (R116). -/
def cw2RightHand (cw2 : Word) : Bool := cw2.getLsbD 0

/-- The start character address of the narrow reading: `cw1<2:3> ∥ cw2<0:14> ∥ c` (R66, R117). -/
def transferStart (cw1 cw2 : Word) : Nat :=
  (cw1Extension cw1 ++ cw2WordAddress cw2 ++ BitVec.ofBool (!cw1WordMode cw1 && cw2RightHand cw2)).toNat

/-- How many characters the transfer moves: a unit is 1 character in char. mode, 2 in word mode (R66). -/
def transferSize (cw1 : Word) : Nat := cw1Length cw1 * (if cw1WordMode cw1 then 2 else 1)

/-- The narrow footprint of one pair of control words: only a CU → MEM transfer writes memory (R66). -/
def transferCovers (cw1 cw2 : Word) (p : Nat) : Bool :=
  !cw1FromMemory cw1 && (transferStart cw1 cw2 ≤ p && p < transferStart cw1 cw2 + transferSize cw1)

/-- Does the event deliver a control word to an I/O Processor? -/
def Event.isExtWrite : Event → Bool
  | .extWrite _ _ => true
  | .read _ _ | .write _ _ | .extRead _ _ => false

/-- Does the first event deliver a 1st control word and the second the 2nd control word of the same device, so that together
they cover the physical address? -/
def pairCovers (ev1 ev2 : Event) (p : Nat) : Bool :=
  match ev1, ev2 with
  | .extWrite a1 cw1, .extWrite a2 cw2 =>
    !isSecondWord a1 && a2 == a1 ||| 1#8 && transferCovers cw1 cw2 p
  | _, _ => false

/-- The narrow footprint of a history: the union over every pair of control words ever delivered to one device, since no rule
ends a transfer (spec/10_state.md R34, log 12). -/
def narrowFootprint (events : List Event) (p : Nat) : Bool :=
  events.any fun ev1 => events.any fun ev2 => pairCovers ev1 ev2 p

/-- The control word an event delivers, with its address: that of an `ExtWrite`, else none. -/
def Event.delivered : Event → Option (ExtAddr × Word)
  | .extWrite a v => some (a, v)
  | .read _ _ | .write _ _ | .extRead _ _ => none

/-- The control words of a history, in the order of their delivery. -/
def controlWordsOf (events : List Event) : List (ExtAddr × Word) := events.filterMap Event.delivered

/-- The footprint that a table gives for the control words delivered: the listed addresses, else an opaque set (log 35). -/
def listedFootprint (table : List FootprintRow) (words : List (ExtAddr × Word)) (p : Nat) : Bool :=
  match table.find? fun row => row.controlWords == words with
  | some row => inSpans row.covers p
  | none => Config.unlistedFootprint words p

/-- `IopFootprint(history)` (R66): the parameter takes the history's control words (R6). -/
def inFootprint (c : Config) (events : List Event) (p : Nat) : Bool :=
  match c.footprint with
  | .allOfMemory => true
  | .narrow => narrowFootprint events p
  | .listed table => listedFootprint table (controlWordsOf events) p

/-- A control word has been delivered to some I/O Processor (R66, R118). -/
def State.controlWordSent (s : State) : Bool := s.events.any Event.isExtWrite

/-- The control word that the history shows last delivered to I/O Processor `p`, device `d`, 1st or 2nd (R34, R113). -/
def State.controlWord (s : State) (p d : Nat) (second : Bool) : Option Word :=
  s.events.reverse.findSome? fun ev =>
    match ev with
    | .extWrite a v => if iopNumberOf a = p ∧ deviceOf a = d ∧ isSecondWord a = second then some v else none
    | _ => none

/-- An I/O Processor may replace the character at a physical address: there is memory (R59), it is no program text (R64), and
it lies in the footprint (R66). The address does not pass through `Translate` (R67). -/
def ioMayWrite (s : State) (p : Nat) : Bool :=
  inSpans s.config.memPresent p && !inSpans s.config.programText p && inFootprint s.config s.events p

/-- Carry out, in order, the replacements of a list that the I/O Processors may make. -/
def ioApply (s : State) (m : Memory) : List (Nat × Byte) → Memory
  | [] => m
  | (p, b) :: rest => ioApply s (if ioMayWrite s p then m.writeByte p b else m) rest

/-- A turn of the I/O Processors: once a control word has been delivered, any number of replacements (R66; free value,
log 11); before that, nothing. -/
def ioTurn (s : State) : State :=
  if s.controlWordSent then
    { s with mem := ioApply s s.mem (Config.ioWrites s.ioTurns), ioTurns := s.ioTurns + 1 }
  else s

/-- Between two word transfers of one instruction there is a turn; before the first there is none (R68). -/
def betweenTransfers : Nat → State → State
  | 0, s => s
  | _ + 1, s => ioTurn s

/-! ## Block transfers -/

/-- The address of word `i` of a block: `EA +16 2i` (R57). -/
def blockAddr (e : Word) (i : Nat) : Word := e + BitVec.ofNat 16 (2 * i)

/-- Read the `n` words of the block at `e` in ascending order (R68). -/
def readBlock : (n : Nat) → Word → State → Result (Vector Word n × State)
  | 0, _, s => .ok (#v[], s)
  | n + 1, e, s => do
    let (ws, t) ← readBlock n e s
    let (w, u) ← memRead (betweenTransfers n t) (blockAddr e n)
    .ok (ws.push w, u)

/-- Write the words to the block at `e` in ascending order (R68). -/
def writeBlock : (n : Nat) → Vector Word n → Word → State → Result State
  | 0, _, _, s => .ok s
  | n + 1, ws, e, s => do
    let t ← writeBlock n ws.pop e s
    memWrite (betweenTransfers n t) (blockAddr e n) ws.back

/-! ## Instruction bytes -/

/-- A word of the instruction: `Translate` kind `fetch` (spec/30_encoding.md R99). A fetch records no event (log 28).

DESIGN CHOICE (log 34, unsafe): the word need not lie in the declared program text. R64 and spec/10_state.md R36 take every word
`pc` visits as declared and no rule says what a fetch of another word does; the model takes its present contents, also after a
store or an I/O Processor has changed them. -/
def fetchWord (s : State) (addr : Word) : Result Word := do
  let p ← physical s addr .fetch
  readPhysical s p

/-- The bytes of the instruction at `pc`: one word, or two where the first says so; a two-word instruction at 0xFFFE is
refused (R99). -/
def fetchBytes (s : State) : Result (List Byte) := do
  let w ← fetchWord s s.pc
  if needsSecondWord s.config.encoding w then do
    require (s.pc != 0xFFFE#16) (.refusal .pcWrap)
    let m ← fetchWord s (s.pc + 2#16)
    .ok (wordChars w ++ wordChars m)
  else .ok (wordChars w)

/-- The refusal of a word that is no instruction (R98). The bytes of a fetch are never truncated. -/
def Reject.refusal : Reject → Refusal
  | .werBit8 => .werBit8
  | .mdZero => .mdZero
  | .notInScope => .notInScope
  | .truncated => .notInScope

/-- Fetch and decode the instruction at `pc` (R99). -/
def fetchInstr (s : State) : Result Instr := do
  let bytes ← fetchBytes s
  match decode s.config.encoding bytes with
  | .ok (i, _) => .ok i
  | .error r => refuse (Reject.refusal r)

/-- After an instruction the I/O Processors have a turn before the next one (R66). -/
def afterInstr : Host.Outcome State Fault Refusal → Host.Outcome State Fault Refusal
  | .next s => .next (ioTurn s)
  | .fault f => .fault f
  | .refused r => .refused r

/-- Store a word where the fetch at an address reads it, from outside the machine: no event, no check but the translation. -/
def placeWord (s : State) (addr v : Word) : State :=
  match translate s.config s.tr s.mode addr .fetch with
  | some p => s.setMem (s.mem.writeWord p v)
  | none => s

end Sys2Proof.Machine
end

