-- ==== Sys2Proof/Machine/Flags.lean ====
section
/-! DEFINITION. The condition register (spec/10_state.md R26): the only flags of the machine. -/

namespace Sys2Proof.Machine

/-- "(extern reg 6,7) → CR": `v<6:7>`, CR = 2·bit 6 + bit 7 (spec/40_external_transfer.md R112; the weights are the spec's
decision D15, log 24). -/
def crOfExternal (v : Word) : BitVec 2 := v.extractLsb' 8 2

/-- The class of the operand with these three words, FPA1 first (spec/42_floating_point_transfer.md R151): the class the
configuration lists, else an opaque one (log 8). -/
def fpClass (c : Config) (ws : Vector Word 3) : FpClass :=
  match c.fpClasses.find? fun row => row.operand == ws with
  | some row => row.fpClass
  | none => Config.unlistedClass ws

/-- CR after FLDR and FLD (R151, R152, R153). -/
def crOfClass : FpClass → BitVec 2
  | .zero => 0#2
  | .positive => 1#2
  | .negative => 2#2
  | .unnormalized => 3#2

end Sys2Proof.Machine
end

