-- ==== Sys2Proof/Machine/Operands.lean ====
section
/-! DEFINITION. The effective address of types T3 to T7 (spec/30_encoding.md R97). -/

namespace Sys2Proof.Machine

/-- `EA(01, r2, -) = x[r2]`: type T3. -/
def eaRegister (s : State) (r2 : RegNum) : Word := s.reg r2

/-- `EA(10, r2, m)`: `m` where r2 = 0 (type T4), else `m +16 x[r2]` (type T5; R57, R96). -/
def eaDirect (s : State) (r2 : RegNum) (m : Word) : Word := if r2 = 0 then m else m + s.reg r2

/-- `EA(11, r2, m)`: the word at `m` (type T6) or at `m +16 x[r2]` (type T7), read once; an I/O Processor may have a turn
between the pointer and the first transfer (spec/20_memory.md R68). -/
def eaIndirect (s : State) (r2 : RegNum) (m : Word) : Result (Word × State) := do
  let (e, t) ← memRead s (eaDirect s r2 m)
  .ok (e, ioTurn t)

/-- The block starts at an even address (spec/41_segment_table.md R130 step 5, spec/42_floating_point_transfer.md R150). -/
def requireEvenBlock (e : Word) : Result Unit := require (isEven e) (.refusal .oddAddress)

/-- A T3 form names a register other than 0 (R98 (d)). -/
def requireT3Register (r2 : RegNum) : Result Unit := require (r2 != 0) (.refusal .r2ZeroT3)

end Sys2Proof.Machine
end

