-- ==== Sys2Proof/Machine/FloatingPoint.lean ====
section
/-! DEFINITION. FLDR, FLD, FLD*, FSTR, FST, FST*: the three accumulators (spec/42_floating_point_transfer.md R150–R156). -/

namespace Sys2Proof.Machine

/-- The Floating Point Processor is there: the model is P857M and has the option (R150 step 2). -/
def ffpInstalled (c : Config) : Bool := c.model == .p857m && c.hasFfp

/-- The checks of R150 steps 2 and 3. -/
def floatChecks (s : State) : Result Unit := do
  require (ffpInstalled s.config) (.fault (.notInstalled s.pc))
  require (!s.config.fpSystemOnly || s.mode == .system) (.fault (.privilegeViolation s.pc))

/-- The accumulators after an aborted load: three draws (R156; free values, log 10). -/
def abortedAccumulators (n : Nat) : Vector Word 3 :=
  #v[Config.abortedAccumulator 0 n, Config.abortedAccumulator 1 n, Config.abortedAccumulator 2 n]

/-- The accumulators take the operand, or three draws where it is unnormalized, and CR its class (R152, R153, R156). -/
def acceptOperand (ws : Vector Word 3) (s : State) : State :=
  (match fpClass s.config ws with
    | .unnormalized => (s.setFpa (abortedAccumulators s.draws)).countDraw
    | .zero | .positive | .negative => s.setFpa ws).setCr (crOfClass (fpClass s.config ws))

/-- Read the three words, classify them, load the accumulators; `pc` advances by `len` (R152, R153). -/
def loadAccumulators (e len : Word) (s : State) : Result State := do
  requireEvenBlock e
  let (ws, t) ← readBlock 3 e s
  .ok ((acceptOperand ws t).advance len)

/-- Write the three accumulators as they are; `pc` advances by `len` (R154, R155). -/
def storeAccumulators (e len : Word) (s : State) : Result State := do
  requireEvenBlock e
  let t ← writeBlock 3 s.fpa e s
  .ok (t.advance len)

/-- FLDR (R152). -/
def execFldr (r2 : RegNum) (s : State) : Host.Outcome State Fault Refusal :=
  finish do
    requireT3Register r2
    floatChecks s
    loadAccumulators (eaRegister s r2) 2#16 s

/-- FLD (R153, types T4 and T5). -/
def execFld (r2 : RegNum) (m : Word) (s : State) : Host.Outcome State Fault Refusal :=
  finish do
    floatChecks s
    loadAccumulators (eaDirect s r2 m) 4#16 s

/-- FLD* (R153, types T6 and T7). -/
def execFldInd (r2 : RegNum) (m : Word) (s : State) : Host.Outcome State Fault Refusal :=
  finish do
    floatChecks s
    let (e, t) ← eaIndirect s r2 m
    loadAccumulators e 4#16 t

/-- FSTR (R154). -/
def execFstr (r2 : RegNum) (s : State) : Host.Outcome State Fault Refusal :=
  finish do
    requireT3Register r2
    floatChecks s
    storeAccumulators (eaRegister s r2) 2#16 s

/-- FST (R155, types T4 and T5). -/
def execFst (r2 : RegNum) (m : Word) (s : State) : Host.Outcome State Fault Refusal :=
  finish do
    floatChecks s
    storeAccumulators (eaDirect s r2 m) 4#16 s

/-- FST* (R155, types T6 and T7): one indirection, then consecutive words (spec/90_conflicts.md C3). -/
def execFstInd (r2 : RegNum) (m : Word) (s : State) : Host.Outcome State Fault Refusal :=
  finish do
    floatChecks s
    let (e, t) ← eaIndirect s r2 m
    storeAccumulators e 4#16 t

end Sys2Proof.Machine
end

