-- ==== Sys2Proof/Machine/External.lean ====
section
/-! DEFINITION. WER and RER (spec/40_external_transfer.md R110–R112). -/

namespace Sys2Proof.Machine

/-- The instruction may only be used in system mode (R110 step 2, spec/60_exceptions.md R172). -/
def requireSystem (s : State) : Result Unit := require (s.mode == .system) (.fault (.privilegeViolation s.pc))

/-- The addressed external register answers (R110 step 3). -/
def requireExternal (s : State) (a : ExtAddr) : Result Unit :=
  require (extAnswers s.config a) (.refusal .noExternalRegister)

/-- WER (R111): send `x[r3]` to the external register at `a`. -/
def execWer (r3 : RegNum) (a : ExtAddr) (s : State) : Host.Outcome State Fault Refusal :=
  finish do
    require (r3 != 0) (.refusal .r3Zero)
    require (werBit8Clear a) (.refusal .werBit8)
    require (decide (iopNumberOf a ≤ iopMax s.config.model)) (.refusal .iopNumber)
    requireSystem s
    requireExternal s a
    .ok ((extWrite s a (s.reg r3)).advance 2#16)

/-- RER (R112): load `x[r3]` from the external register at `a`, and CR from its bits 6 and 7. -/
def execRer (r3 : RegNum) (a : ExtAddr) (s : State) : Host.Outcome State Fault Refusal :=
  finish do
    require (r3 != 0) (.refusal .r3Zero)
    requireSystem s
    requireExternal s a
    let (v, t) := extRead s a
    .ok (((t.setReg r3 v).setCr (crOfExternal v)).advance 2#16)

end Sys2Proof.Machine
end

