-- ==== Sys2Proof/Machine/SegmentTable.lean ====
section
/-! DEFINITION. TLR, TL, TL*, TSR, TS, TS*: the sixteen MMU registers (spec/41_segment_table.md R130–R136). -/

namespace Sys2Proof.Machine

/-- The MMU is there: the model is P857M and has the option (R130 step 2). -/
def mmuInstalled (c : Config) : Bool := c.model == .p857m && c.hasMmu

/-- The checks of R130 steps 2 and 3. -/
def segmentChecks (s : State) : Result Unit := do
  require (mmuInstalled s.config) (.fault (.notInstalled s.pc))
  requireSystem s

/-- `for i = 0 .. 15: TR[i] <- MemRead(E +16 2i, 2)`, then `pc` advances by `len` (R131, R132). All accesses are translated
with the old TR values: the registers are written after the last read (R136). -/
def loadSegmentTable (e len : Word) (s : State) : Result State := do
  requireEvenBlock e
  let (ws, t) ← readBlock 16 e s
  .ok ((t.setTr ws).advance len)

/-- `for i = 0 .. 15: MemWrite(E +16 2i, 2, TR[i])`, then `pc` advances by `len` (R133, R134). -/
def storeSegmentTable (e len : Word) (s : State) : Result State := do
  requireEvenBlock e
  let t ← writeBlock 16 s.tr e s
  .ok (t.advance len)

/-- TLR (R131). -/
def execTlr (r2 : RegNum) (s : State) : Host.Outcome State Fault Refusal :=
  finish do
    requireT3Register r2
    segmentChecks s
    loadSegmentTable (eaRegister s r2) 2#16 s

/-- TL (R132, types T4 and T5). -/
def execTl (r2 : RegNum) (m : Word) (s : State) : Host.Outcome State Fault Refusal :=
  finish do
    segmentChecks s
    loadSegmentTable (eaDirect s r2 m) 4#16 s

/-- TL* (R132, types T6 and T7). -/
def execTlInd (r2 : RegNum) (m : Word) (s : State) : Host.Outcome State Fault Refusal :=
  finish do
    segmentChecks s
    let (e, t) ← eaIndirect s r2 m
    loadSegmentTable e 4#16 t

/-- TSR (R133). -/
def execTsr (r2 : RegNum) (s : State) : Host.Outcome State Fault Refusal :=
  finish do
    requireT3Register r2
    segmentChecks s
    storeSegmentTable (eaRegister s r2) 2#16 s

/-- TS (R134, types T4 and T5). -/
def execTs (r2 : RegNum) (m : Word) (s : State) : Host.Outcome State Fault Refusal :=
  finish do
    segmentChecks s
    storeSegmentTable (eaDirect s r2 m) 4#16 s

/-- TS* (R134, types T6 and T7): one indirection, then consecutive words (spec/90_conflicts.md C3). -/
def execTsInd (r2 : RegNum) (m : Word) (s : State) : Host.Outcome State Fault Refusal :=
  finish do
    segmentChecks s
    let (e, t) ← eaIndirect s r2 m
    storeSegmentTable e 4#16 t

end Sys2Proof.Machine
end

