-- ==== Sys2Proof/Machine/Dispatch.lean ====
section
/-! DEFINITION. One arm per instruction. -/

namespace Sys2Proof.Machine

def exec (i : Instr) (s : State) : Host.Outcome State Fault Refusal :=
  match i with
  | .wer r3 a => Sys2Proof.Machine.execWer r3 a s
  | .rer r3 a => Sys2Proof.Machine.execRer r3 a s
  | .tlr r2 => Sys2Proof.Machine.execTlr r2 s
  | .tl r2 m => Sys2Proof.Machine.execTl r2 m s
  | .tlInd r2 m => Sys2Proof.Machine.execTlInd r2 m s
  | .tsr r2 => Sys2Proof.Machine.execTsr r2 s
  | .ts r2 m => Sys2Proof.Machine.execTs r2 m s
  | .tsInd r2 m => Sys2Proof.Machine.execTsInd r2 m s
  | .fldr r2 => Sys2Proof.Machine.execFldr r2 s
  | .fld r2 m => Sys2Proof.Machine.execFld r2 m s
  | .fldInd r2 m => Sys2Proof.Machine.execFldInd r2 m s
  | .fstr r2 => Sys2Proof.Machine.execFstr r2 s
  | .fst r2 m => Sys2Proof.Machine.execFst r2 m s
  | .fstInd r2 m => Sys2Proof.Machine.execFstInd r2 m s

end Sys2Proof.Machine
end

