-- ==== Sys2Proof/Machine/Step.lean ====
section
/-! DEFINITION. One step of the central processor (spec/60_exceptions.md R170), followed by a turn of the I/O Processors
(spec/20_memory.md R66). -/

namespace Sys2Proof.Machine

/-- Fetch and decode the instruction at `pc`, execute it, give the I/O Processors their turn. -/
def step (s : State) : Host.Outcome State Fault Refusal :=
  match fetchInstr s with
  | .ok i => afterInstr (exec i s)
  | .error stop => stop.outcome

/-- The state with an instruction stored where the next step fetches it: the first word at `pc`, the second at `pc +16 2`, both
through `Translate` with kind `fetch`. It stands for the load of a program from outside the machine (log 6). -/
def State.withFetchWord (s : State) (nbits w : Nat) : State :=
  placeWord (placeWord s s.pc (BitVec.ofNat 16 (w % 2 ^ nbits))) (s.pc + 2#16)
    (BitVec.ofNat 16 (w % 2 ^ nbits / 2 ^ 16))

end Sys2Proof.Machine
end

