-- ==== Sys2Proof/Safety.lean ====
section
/-! DEFINITION. The terms claims are stated in: the end of a run, launch premises, the invariant, what an access needs, and
which instruction touches what. -/

namespace Sys2Proof.Machine

/-- A run is over when `pc = END`; nothing says that the chip stops there (spec/70_reset_and_hazards.md R197). -/
abbrev RunOver (endAddr : Word) (s : State) : Prop := s.pc = endAddr

/-- No control word has been delivered to an I/O Processor, so memory is stable (spec/20_memory.md R66, R118). -/
abbrev Quiet (s : State) : Prop := s.controlWordSent = false

/-- How a run of the chip goes on: by an instruction, or by an interrupt that the model does not take (spec/60_exceptions.md R174,
log 15). -/
inductive Move where
  | instruction
  | interruptEntry
  deriving DecidableEq, Repr

/-- A run of the chip: where it starts, and how each next state is reached. -/
structure ChipRun where
  start : State
  moves : List (Move × State)
  deriving DecidableEq, Repr

/-- Each instruction of a run is a step of the model; of what an interrupt leaves behind nothing is known (R174). A step that
faults or is refused has no next state, so no fault and no refusal is recorded in a run (R170, R171). -/
def followsFrom : State → List (Move × State) → Prop
  | _, [] => True
  | s, (.instruction, t) :: rest => step s = .next t ∧ followsFrom t rest
  | _, (.interruptEntry, t) :: rest => followsFrom t rest

/-- The states of the run follow one from another. -/
def ChipRun.Follows (r : ChipRun) : Prop := followsFrom r.start r.moves

/-- The states of the run, the start first. -/
def ChipRun.states (r : ChipRun) : List State := r.start :: r.moves.map Prod.snd

/-- The last state of the run. -/
def ChipRun.last (r : ChipRun) : State := (r.moves.map Prod.snd).getLastD r.start

/-- `InterruptsInhibited`: for the whole run no interrupt is taken (R174). -/
def ChipRun.InterruptsInhibited (r : ChipRun) : Prop := ∀ m ∈ r.moves, m.1 = .instruction

/-- WER, RER and the instructions of the MMU are restricted to system mode (spec/60_exceptions.md R177). -/
def restricted : Instr → Bool
  | .wer _ _ | .rer _ _ | .tlr _ | .tl _ _ | .tlInd _ _ | .tsr _ | .ts _ _ | .tsInd _ _ => true
  | .fldr _ | .fld _ _ | .fldInd _ _ | .fstr _ | .fst _ _ | .fstInd _ _ => false

/-- The first word of an instruction that is restricted to system mode. -/
def restrictedWord (e : Encoding) (w : Word) : Bool :=
  match findRow e w with
  | some r => restricted (build e r.op w 0#16)
  | none => false

/-- The words, read as instructions one after another, hold a restricted instruction. The second word of an instruction is no
instruction of its own (spec/30_encoding.md R95). -/
def usesRestricted (e : Encoding) : List Word → Bool
  | [] => false
  | [w] => restrictedWord e w
  | w :: m :: rest => restrictedWord e w || (if needsSecondWord e w then usesRestricted e rest else usesRestricted e (m :: rest))

/-- What a claim about a program names of its launch (spec/70_reset_and_hazards.md R191). `IOP_MAX` is computed from the model
(spec/00_scope.md R6). -/
structure Launch where
  /-- the entry `pc` -/
  entry : Word
  /-- the mode, in which the whole run stays (spec/60_exceptions.md R177) -/
  mode : Mode
  /-- the words of the program text in program order, each with its physical address -/
  text : List (Nat × Word)
  model : Model
  hasMmu : Bool
  hasFfp : Bool
  extPresent : List Span
  /-- the registers the program reads before writing, with their values -/
  x : List (RegNum × Word)
  /-- the MMU registers read before written -/
  tr : List (Fin 16 × Word)
  /-- the accumulators read before written, FPA1 being number 0 -/
  fpa : List (Fin 3 × Word)
  /-- the memory words read before written, each with its physical address -/
  memory : List (Nat × Word)
  /-- the physical character addresses the claim speaks of -/
  claimed : List Span
  deriving DecidableEq, Repr

/-- The program uses one of the six restricted instructions, so that it needs system mode (R191). -/
def Launch.needsSystem (l : Launch) (e : Encoding) : Bool := usesRestricted e (l.text.map Prod.snd)

/-- The launch premises of R191 on the state a run starts from, and the premises of spec/00_scope.md R6 and spec/30_encoding.md R99
on the parameters. -/
structure LaunchedAt (l : Launch) (s : State) : Prop where
  atEntry : s.pc = l.entry
  even : isEven l.entry = true
  /-- the declared program text is the launch's words -/
  declared : s.config.programText = l.text.map fun w => ⟨w.1, 2⟩
  /-- they stand in memory -/
  text : ∀ w ∈ l.text, wordPresent s.config w.1 = true ∧ s.mem.readWord w.1 = some w.2
  mode : s.mode = l.mode
  /-- system mode, if the program uses a restricted instruction -/
  system : l.needsSystem s.config.encoding = true → l.mode = .system
  model : s.config.model = l.model
  hasMmu : s.config.hasMmu = l.hasMmu
  hasFfp : s.config.hasFfp = l.hasFfp
  extPresent : s.config.extPresent = l.extPresent
  options : l.hasMmu = true ∨ l.hasFfp = true → l.model = .p857m
  encoding : s.config.encoding.valid = true
  x : ∀ v ∈ l.x, s.reg v.1 = v.2
  tr : ∀ v ∈ l.tr, s.tr[v.1.val] = v.2
  fpa : ∀ v ∈ l.fpa, s.fpa[v.1.val] = v.2
  memory : ∀ w ∈ l.memory, s.mem.readWord w.1 = some w.2
  /-- no transfer in flight whose footprint meets memory the claim speaks of -/
  noTransfer : s.controlWordSent = true →
    ∀ a, inSpans l.claimed a = true → inFootprint s.config s.events a = false

/-- The launch premises of R191 on a run. That no fault or refusal is recorded is `ChipRun.Follows`. -/
structure LaunchPremises (l : Launch) (r : ChipRun) : Prop where
  launched : LaunchedAt l r.start
  inhibited : r.InterruptsInhibited

/-- The invariant: memory keeps its canonical form and holds characters only where there is memory (R59), and the program
counter is even (spec/10_state.md R24). -/
structure State.Inv (s : State) : Prop where
  wf : Memory.wf s.mem
  present : ∀ c ∈ s.mem, inSpans s.config.memPresent c.1 = true
  even : isEven s.pc = true

/-- The physical address and the word that a read, or a fetch, at an address yields; `none` where it would stop. -/
def accessible (s : State) (addr : Word) (kind : AccessKind) : Option (Nat × Word) :=
  if isEven addr then
    match translate s.config s.tr s.mode addr kind with
    | some p => if wordPresent s.config p then (s.mem.readWord p).map (fun v => (p, v)) else none
    | none => none
  else none

/-- The physical address to which a word store at an address goes; `none` where it would stop (R54, R64). -/
def storable (s : State) (addr : Word) : Option Nat :=
  if isEven addr then
    match translate s.config s.tr s.mode addr .write with
    | some p => if wordPresent s.config p && !wordInText s.config p then some p else none
    | none => none
  else none

/-- The `n` words of the block at `e` are readable: word `i`, at `e +16 2i`, lies at physical address `ps[i]` and is `ws[i]`. -/
def BlockReads (s : State) (e : Word) {n : Nat} (ps : Vector Nat n) (ws : Vector Word n) : Prop :=
  ∀ i : Fin n, accessible s (e + BitVec.ofNat 16 (2 * i.val)) .read = some (ps[i.val], ws[i.val])

/-- The `n` words of the block at `e` can be stored to: word `i`, at `e +16 2i`, goes to physical address `ps[i]`. -/
def BlockStores (s : State) (e : Word) {n : Nat} (ps : Vector Nat n) : Prop :=
  ∀ i : Fin n, storable s (e + BitVec.ofNat 16 (2 * i.val)) = some ps[i.val]

/-- The events of reading a block, in ascending order (R53, R68). -/
def readEvents {n : Nat} (ps : Vector Nat n) (ws : Vector Word n) : List Event :=
  List.ofFn fun i : Fin n => .read ps[i.val] ws[i.val]

/-- The events of writing a block, in ascending order (R54, R68). -/
def writeEvents {n : Nat} (ps : Vector Nat n) (ws : Vector Word n) : List Event :=
  List.ofFn fun i : Fin n => .write ps[i.val] ws[i.val]

/-- Two words of memory share no character. -/
abbrev apart (p q : Nat) : Prop := p + 2 ≤ q ∨ q + 2 ≤ p

/-- A physical address outside the word at `p`. -/
abbrev outsideWord (a p : Nat) : Prop := a ≠ p ∧ a ≠ p + 1

/-- `t` is `s` after the words `ws` have been stored to the physical addresses `ps` in ascending order and `pc` has advanced by
`len`; `before` are the events of a pointer read. Every word that no later word overlaps reads back; every character outside
the stored words is as it was; nothing but memory, the history and `pc` differs. -/
structure StoredBlock (s t : State) (len : Word) (before : List Event) {n : Nat} (ps : Vector Nat n) (ws : Vector Word n) :
    Prop where
  frame : t = { s with pc := s.pc + len, mem := t.mem, events := s.events ++ before ++ writeEvents ps ws }
  stored : ∀ i : Fin n, (∀ j : Fin n, i < j → apart ps[i.val] ps[j.val]) → t.mem.readWord ps[i.val] = some ws[i.val]
  rest : ∀ a, (∀ i : Fin n, outsideWord a ps[i.val]) → t.mem.readByte a = s.mem.readByte a

/-- `t` is `s` after the operand `ws`, read from the physical addresses `ps`, has been loaded into the accumulators, CR has taken
its class, and `pc` has advanced by `len`; `before` are the events of a pointer read. After an unnormalized operand the
accumulators hold three draws, of which nothing is said. Nothing else differs but the history and the count of draws. -/
structure LoadedOperand (s t : State) (len : Word) (before : List Event) (ps : Vector Nat 3) (ws : Vector Word 3) : Prop where
  frame : t = { s with pc := s.pc + len, cr := t.cr, fpa := t.fpa, draws := t.draws,
                       events := s.events ++ before ++ readEvents ps ws }
  loaded : fpClass s.config ws ≠ .unnormalized → t.fpa = ws
  zero : fpClass s.config ws = .zero → t.cr = 0#2
  positive : fpClass s.config ws = .positive → t.cr = 1#2
  negative : fpClass s.config ws = .negative → t.cr = 2#2
  unnormalized : fpClass s.config ws = .unnormalized → t.cr = 3#2

/-- The instructions that store to memory: TSR, TS, FSTR, FST (spec/20_memory.md R64). -/
def storesMemory : Instr → Bool
  | .tsr _ | .ts _ _ | .tsInd _ _ | .fstr _ | .fst _ _ | .fstInd _ _ => true
  | .wer _ _ | .rer _ _ | .tlr _ | .tl _ _ | .tlInd _ _ | .fldr _ | .fld _ _ | .fldInd _ _ => false

/-- The instructions that write TR0–TR15: TLR and TL (spec/10_state.md R29). -/
def writesTr : Instr → Bool
  | .tlr _ | .tl _ _ | .tlInd _ _ => true
  | .wer _ _ | .rer _ _ | .tsr _ | .ts _ _ | .tsInd _ _ | .fldr _ | .fld _ _ | .fldInd _ _ | .fstr _ | .fst _ _
  | .fstInd _ _ => false

/-- The instructions that write FPA1–FPA3: FLDR and FLD (R30). -/
def writesFpa : Instr → Bool
  | .fldr _ | .fld _ _ | .fldInd _ _ => true
  | .wer _ _ | .rer _ _ | .tlr _ | .tl _ _ | .tlInd _ _ | .tsr _ | .ts _ _ | .tsInd _ _ | .fstr _ | .fst _ _
  | .fstInd _ _ => false

/-- The instructions that write CR: RER, FLDR and FLD (R26). -/
def writesCr : Instr → Bool
  | .rer _ _ | .fldr _ | .fld _ _ | .fldInd _ _ => true
  | .wer _ _ | .tlr _ | .tl _ _ | .tlInd _ _ | .tsr _ | .ts _ _ | .tsInd _ _ | .fstr _ | .fst _ _ | .fstInd _ _ => false

/-- The general register an instruction writes: r3 of RER (R22). -/
def registerWritten : Instr → Option RegNum
  | .rer r3 _ => some r3
  | .wer _ _ | .tlr _ | .tl _ _ | .tlInd _ _ | .tsr _ | .ts _ _ | .tsInd _ _ | .fldr _ | .fld _ _ | .fldInd _ _
  | .fstr _ | .fst _ _ | .fstInd _ _ => none

/-- The general register an instruction reads, if it reads one (R22): r3 of WER; r2 of the T3 forms; r2 ≠ 0 as the index of the
two-word forms. -/
def registerRead : Instr → Option RegNum
  | .wer r3 _ => some r3
  | .rer _ _ => none
  | .tlr r2 | .tsr r2 | .fldr r2 | .fstr r2 => some r2
  | .tl r2 _ | .tlInd r2 _ | .ts r2 _ | .tsInd r2 _ | .fld r2 _ | .fldInd r2 _ | .fst r2 _ | .fstInd r2 _ =>
    if r2 = 0 then none else some r2

/-- The instructions of the MMU: TLR, TL, TSR, TS (spec/60_exceptions.md R180). -/
def usesMmu : Instr → Bool
  | .tlr _ | .tl _ _ | .tlInd _ _ | .tsr _ | .ts _ _ | .tsInd _ _ => true
  | .wer _ _ | .rer _ _ | .fldr _ | .fld _ _ | .fldInd _ _ | .fstr _ | .fst _ _ | .fstInd _ _ => false

/-- The instructions of the Floating Point Processor: FLDR, FLD, FSTR, FST (R180). -/
def usesFfp : Instr → Bool
  | .fldr _ | .fld _ _ | .fldInd _ _ | .fstr _ | .fst _ _ | .fstInd _ _ => true
  | .wer _ _ | .rer _ _ | .tlr _ | .tl _ _ | .tlInd _ _ | .tsr _ | .ts _ _ | .tsInd _ _ => false

/-- A T3 form with r2 = 0 (spec/30_encoding.md R98 (d)). -/
def t3Zero : Instr → Bool
  | .tlr r2 | .tsr r2 | .fldr r2 | .fstr r2 => r2 == 0
  | .wer _ _ | .rer _ _ | .tl _ _ | .tlInd _ _ | .ts _ _ | .tsInd _ _ | .fld _ _ | .fldInd _ _ | .fst _ _
  | .fstInd _ _ => false

/-- The block instruction passes the checks that come before its effective address (R130 steps 1 to 3, R150 steps 1 to 3). -/
structure Ready (i : Instr) (s : State) : Prop where
  register : t3Zero i = false
  mmu : usesMmu i = true → s.config.model = .p857m ∧ s.config.hasMmu = true ∧ s.mode = .system
  ffp : usesFfp i = true →
    s.config.model = .p857m ∧ s.config.hasFfp = true ∧ (s.config.fpSystemOnly = false ∨ s.mode = .system)

/-- The address of the block of a T3, T4 or T5 instruction (R97). -/
def blockAddress (s : State) : Instr → Option Word
  | .tlr r2 | .tsr r2 | .fldr r2 | .fstr r2 => some (s.reg r2)
  | .tl r2 m | .ts r2 m | .fld r2 m | .fst r2 m => some (if r2 = 0 then m else m + s.reg r2)
  | .wer _ _ | .rer _ _ | .tlInd _ _ | .tsInd _ _ | .fldInd _ _ | .fstInd _ _ => none

/-- The address of the pointer word of a T6 or T7 instruction (R97). -/
def pointerAddress (s : State) : Instr → Option Word
  | .tlInd r2 m | .tsInd r2 m | .fldInd r2 m | .fstInd r2 m => some (if r2 = 0 then m else m + s.reg r2)
  | .wer _ _ | .rer _ _ | .tlr _ | .tl _ _ | .tsr _ | .ts _ _ | .fldr _ | .fld _ _ | .fstr _ | .fst _ _ => none

/-- The block of an instruction is at `e`: its effective address, or for types T6 and T7 the word the pointer address holds. -/
abbrev BlockAt (i : Instr) (s : State) (e : Word) : Prop :=
  blockAddress s i = some e ∨ ∃ a p, pointerAddress s i = some a ∧ accessible s a .read = some (p, e)

/-- How many words an instruction moves between memory and registers (spec/20_memory.md R55). -/
def wordsMoved (i : Instr) : Nat := if usesMmu i then 16 else if usesFfp i then 3 else 0

/-- The two states agree on everything but memory, the event history and the count of I/O Processor turns. -/
structure MemoryOnly (s t : State) : Prop where
  x : t.x = s.x
  pc : t.pc = s.pc
  cr : t.cr = s.cr
  mode : t.mode = s.mode
  tr : t.tr = s.tr
  fpa : t.fpa = s.fpa
  draws : t.draws = s.draws
  config : t.config = s.config

end Sys2Proof.Machine
end

