-- ==== Sys2Proof/Certificates/Slice0/Obligations.lean ====
section
/-! DEFINITION. The statements for the provers. Every statement quantifies over the state, and so over the configuration: the
model of the machine, its options, the translation, the encoding (log 1). A premise `Quiet` says that no control word has been
delivered to an I/O Processor, the premise spec/20_memory.md R66 asks of every claim about memory. -/

open Sys2Proof Sys2Proof.Machine

/-! ## Decoding and encoding -/

/-- Words of the spec's own vectors (spec/95_test_vectors.md 2.5) decode to what they stand for, under the launch's parameters
(log 4); their bits are complete in the spec, and `TsrWordDecodes` and `TsWordsDecode` say it under any parameters. -/
def Obligations.WordsOfTheSpecDecode : Prop :=
  decode launchEncoding [0xB8#8, 0x23#8] = .ok (.tsr 1, []) ∧
  decode launchEncoding [0xB8#8, 0x3F#8] = .ok (.tsr 15, []) ∧
  decode launchEncoding [0xB8#8, 0x47#8, 0x00#8, 0x10#8] = .ok (.ts 3 0x0010#16, []) ∧
  decode launchEncoding [0xB8#8, 0x61#8, 0x06#8, 0x00#8] = .ok (.tsInd 0 0x0600#16, []) ∧
  decode launchEncoding [0xB8#8, 0x6B#8, 0x06#8, 0x00#8] = .ok (.tsInd 5 0x0600#16, []) ∧
  decode launchEncoding [0xB8#8, 0x01#8] = .error .mdZero ∧
  decode launchEncoding [0xB8#8, 0xC1#8] = .error .notInScope

/-- R88: under any parameters with disjoint rows, the word 0xB821 + 2·r2 is TSR r2, and its encoder gives that word. -/
def Obligations.TsrWordDecodes : Prop :=
  ∀ (e : Encoding) (r2 : RegNum) (rest : List Byte), e.disjoint = true →
    decode e (wordChars (BitVec.ofNat 16 (0xB821 + 2 * r2.val)) ++ rest) = .ok (.tsr r2, rest) ∧
    encode e (.tsr r2) = [BitVec.ofNat 16 (0xB821 + 2 * r2.val)] ∧
    (∀ w : Word, w &&& 0xFFE1#16 = 0xB821#16 ↔ ∃ q : RegNum, w = BitVec.ofNat 16 (0xB821 + 2 * q.val)) ∧
    decode e [0xB8#8, 0x23#8] = .ok (.tsr 1, []) ∧ decode e [0xB8#8, 0x3F#8] = .ok (.tsr 15, [])

/-- R89: under any parameters with disjoint rows, MD = 10 is TS, MD = 11 is TS*, MD = 01 is TSR, MD = 00 is refused, and the
second word is m. -/
def Obligations.TsWordsDecode : Prop :=
  ∀ (e : Encoding) (r2 : RegNum) (m : Word) (rest : List Byte), e.disjoint = true →
    decode e (wordChars (BitVec.ofNat 16 (0xB841 + 2 * r2.val)) ++ wordChars m ++ rest) = .ok (.ts r2 m, rest) ∧
    decode e (wordChars (BitVec.ofNat 16 (0xB861 + 2 * r2.val)) ++ wordChars m ++ rest) = .ok (.tsInd r2 m, rest) ∧
    decode e (wordChars (BitVec.ofNat 16 (0xB821 + 2 * r2.val)) ++ rest) = .ok (.tsr r2, rest) ∧
    decode e (wordChars (BitVec.ofNat 16 (0xB801 + 2 * r2.val)) ++ rest) = .error .mdZero ∧
    decode e ([0xB8#8, 0x41#8] ++ wordChars m) = .ok (.ts 0 m, []) ∧
    decode e ([0xB8#8, 0x47#8] ++ wordChars m) = .ok (.ts 3 m, []) ∧
    decode e ([0xB8#8, 0x61#8] ++ wordChars m) = .ok (.tsInd 0 m, []) ∧
    decode e ([0xB8#8, 0x6B#8] ++ wordChars m) = .ok (.tsInd 5 m, [])

/-- The long words whose operation code is an open parameter P (spec/95_test_vectors.md 2.5: word = 128·P + low; R91, R93, R94):
low is 32·MD + 2·r2 + bit 15, with bit 15 = 0 for FLDR and FLD. -/
def Obligations.OpenLongWordsDecode : Prop :=
  ∀ (e : Encoding) (r2 : RegNum) (m : Word) (rest : List Byte), e.disjoint = true →
    (∀ hi : BitVec 9, hi = e.fpB0to8 →
      decode e (wordChars (BitVec.ofNat 16 (128 * hi.toNat + 0x20 + 2 * r2.val)) ++ rest) = .ok (.fldr r2, rest) ∧
      decode e (wordChars (BitVec.ofNat 16 (128 * hi.toNat + 0x40 + 2 * r2.val)) ++ wordChars m ++ rest)
        = .ok (.fld r2 m, rest) ∧
      decode e (wordChars (BitVec.ofNat 16 (128 * hi.toNat + 0x60 + 2 * r2.val)) ++ wordChars m ++ rest)
        = .ok (.fldInd r2 m, rest)) ∧
    (∀ (hi : BitVec 9) (b : Bool), hi = e.tlB0to8 → b = e.tlB15 →
      decode e (wordChars (BitVec.ofNat 16 (128 * hi.toNat + 0x20 + 2 * r2.val + b.toNat)) ++ rest)
        = .ok (.tlr r2, rest) ∧
      decode e (wordChars (BitVec.ofNat 16 (128 * hi.toNat + 0x40 + 2 * r2.val + b.toNat)) ++ wordChars m ++ rest)
        = .ok (.tl r2 m, rest) ∧
      decode e (wordChars (BitVec.ofNat 16 (128 * hi.toNat + 0x60 + 2 * r2.val + b.toNat)) ++ wordChars m ++ rest)
        = .ok (.tlInd r2 m, rest)) ∧
    (∀ (hi : BitVec 9) (b : Bool), hi = e.fstB0to8 → b = e.fstB15 →
      decode e (wordChars (BitVec.ofNat 16 (128 * hi.toNat + 0x20 + 2 * r2.val + b.toNat)) ++ rest)
        = .ok (.fstr r2, rest) ∧
      decode e (wordChars (BitVec.ofNat 16 (128 * hi.toNat + 0x40 + 2 * r2.val + b.toNat)) ++ wordChars m ++ rest)
        = .ok (.fst r2 m, rest) ∧
      decode e (wordChars (BitVec.ofNat 16 (128 * hi.toNat + 0x60 + 2 * r2.val + b.toNat)) ++ wordChars m ++ rest)
        = .ok (.fstInd r2 m, rest))

/-- The short words (R84–R86): a high byte that holds the operation code of WER outside r3 and a low byte with bit 8 = 0 is a
WER of that address; likewise RER, whose bit 8 is whatever the parameter leaves it. That r3 is the number the bits under R3_FIELD
form, highest first, in one field shared by WER and RER, is the model's choice (log 26, DEDUCED): R85 leaves it open. -/
def Obligations.ShortWordsDecode : Prop :=
  ∀ (e : Encoding) (hi : Byte) (a : ExtAddr) (rest : List Byte), e.disjoint = true →
    (hi &&& ~~~e.r3Field = e.werHi → a.getLsbD 7 = false →
      decode e (hi :: a :: rest) = .ok (.wer (Fin.ofNat 16 (gatherBits e.r3Field hi 8)) a, rest)) ∧
    (hi &&& ~~~e.r3Field = e.rerHi → (∀ b, e.rerBit8 = some b → a.getLsbD 7 = b) →
      decode e (hi :: a :: rest) = .ok (.rer (Fin.ofNat 16 (gatherBits e.r3Field hi 8)) a, rest))

/-- DECODE AND ENCODE AGREE: under every admissible choice of the open parameters, the bytes of an instruction that has a
word decode to that instruction. -/
def Obligations.DecodeOfEncode : Prop :=
  ∀ (e : Encoding) (i : Instr) (rest : List Byte), e.valid = true → e.admits i = true →
    decode e (encodeBytes e i ++ rest) = .ok (i, rest)

/-- Decoding drops no bit: bytes that decode to an instruction are the bytes of that instruction. -/
def Obligations.EncodeOfDecode : Prop :=
  ∀ (e : Encoding) (i : Instr) (bytes rest : List Byte), e.valid = true → decode e bytes = .ok (i, rest) →
    e.admits i = true ∧ bytes = encodeBytes e i ++ rest

/-- The T8 and T3 forms have one word, the T4–T7 forms two, and decoding consumes exactly that many characters (R80). The lengths
and the second word are the spec's own decision D2, not the source's, and log 19 of this model (DEDUCED). -/
def Obligations.InstructionsHaveOneOrTwoWords : Prop :=
  (∀ (e : Encoding) (i : Instr) (bytes rest : List Byte), decode e bytes = .ok (i, rest) →
    bytes.length = i.length + rest.length) ∧
  (∀ (r : RegNum) (a : ExtAddr) (m : Word),
    (∀ i ∈ [Instr.wer r a, .rer r a, .tlr r, .tsr r, .fldr r, .fstr r], i.length = 2) ∧
    (∀ i ∈ [Instr.tl r m, .tlInd r m, .ts r m, .tsInd r m, .fld r m, .fldInd r m, .fst r m, .fstInd r m], i.length = 4))

/-! ## Steps -/

/-- A step runs the decoded instruction, then gives the I/O Processors their turn (that the turn stands here is the model's
choice, log 11). -/
def Obligations.StepRunsTheDecodedInstruction : Prop :=
  ∀ (s : State) (i : Instr),
    (∀ p w, accessible s s.pc .fetch = some (p, w) → decode s.config.encoding (wordChars w) = .ok (i, []) →
      step s = afterInstr (exec i s)) ∧
    (∀ p w q m, s.pc ≠ 0xFFFE#16 → accessible s s.pc .fetch = some (p, w) →
      accessible s (s.pc + 2#16) .fetch = some (q, m) →
      decode s.config.encoding (wordChars w ++ wordChars m) = .ok (i, []) → step s = afterInstr (exec i s)) ∧
    (∀ t, exec i s = .next t → afterInstr (exec i s) = .next (ioTurn t)) ∧
    (∀ t, exec i s = .next t → Quiet t → afterInstr (exec i s) = .next t) ∧
    (∀ f, exec i s = .fault f → afterInstr (exec i s) = .fault f) ∧
    (∀ r, exec i s = .refused r → afterInstr (exec i s) = .refused r)

/-- Where a fetch stops (R52, R99, R53): an odd pc, a translation fault, absent memory, the second word of an instruction at
0xFFFE. Two clauses go further by the model's choice: R53 speaks of the address `p` of the word alone, and that the fetch is
refused also where only the second character of the word is absent is log 20 (DEDUCED); that a character which nothing has
written stops it is log 5 (DESIGN CHOICE). -/
def Obligations.FetchStops : Prop :=
  ∀ s : State,
    (isEven s.pc = false → step s = .refused .oddAddress) ∧
    (isEven s.pc = true → translate s.config s.tr s.mode s.pc .fetch = none → step s = .fault (.addressFault s.pc)) ∧
    (∀ p, isEven s.pc = true → translate s.config s.tr s.mode s.pc .fetch = some p →
      wordPresent s.config p = false → step s = .refused .noMemory) ∧
    (∀ p, isEven s.pc = true → translate s.config s.tr s.mode s.pc .fetch = some p →
      wordPresent s.config p = true → s.mem.readWord p = none → step s = .fault (.unwrittenMemory p)) ∧
    (∀ p w, accessible s s.pc .fetch = some (p, w) → needsSecondWord s.config.encoding w = true →
      s.pc = 0xFFFE#16 → step s = .refused .pcWrap)

/-- R98 (e), (f): a first word of no row is refused by name; the TS pattern with MD = 00 as `MdZero`. -/
def Obligations.UndecodableWordsAreRefused : Prop :=
  ∀ (s : State) (p : Nat) (w : Word), accessible s s.pc .fetch = some (p, w) →
    (findRow s.config.encoding w = none →
      step s = .refused .werBit8 ∨ step s = .refused .mdZero ∨ step s = .refused .notInScope) ∧
    (∀ r2 : RegNum, s.config.encoding.disjoint = true → w = BitVec.ofNat 16 (0xB801 + 2 * r2.val) →
      step s = .refused .mdZero)

/-! ## WER and RER -/

/-- WER completes: the event, nothing else but the program counter (R111). -/
def Obligations.WerSendsTheRegister : Prop :=
  ∀ (r3 : RegNum) (a : ExtAddr) (s : State), r3 ≠ 0 → a.getLsbD 7 = false → iopNumberOf a ≤ iopMax s.config.model →
    s.mode = .system → extAnswers s.config a = true →
    exec (.wer r3 a) s = .next { s with events := s.events ++ [.extWrite a (s.reg r3)], pc := s.pc + 2#16 }

/-- Where WER stops, in the order of R110. -/
def Obligations.WerStops : Prop :=
  ∀ (r3 : RegNum) (a : ExtAddr) (s : State),
    (r3 = 0 → exec (.wer r3 a) s = .refused .r3Zero) ∧
    (r3 ≠ 0 → a.getLsbD 7 = true → exec (.wer r3 a) s = .refused .werBit8) ∧
    (r3 ≠ 0 → a.getLsbD 7 = false → s.config.model = .p851m → iopNumberOf a ≠ 0 →
      exec (.wer r3 a) s = .refused .iopNumber) ∧
    (r3 ≠ 0 → a.getLsbD 7 = false → (s.config.model = .p851m → iopNumberOf a = 0) →
      (s.mode = .user → exec (.wer r3 a) s = .fault (.privilegeViolation s.pc)) ∧
      (s.mode = .system → extAnswers s.config a = false → exec (.wer r3 a) s = .refused .noExternalRegister))

/-- RER completes: r3 takes the value read, CR its bits 6 and 7, the event is recorded (R112). The value is free (log 9). -/
def Obligations.RerLoadsRegisterAndCondition : Prop :=
  ∀ (r3 : RegNum) (a : ExtAddr) (s : State), r3 ≠ 0 → s.mode = .system → extAnswers s.config a = true →
    ∃ t v, exec (.rer r3 a) s = .next t ∧
      t = { s with x := t.x, cr := t.cr, pc := s.pc + 2#16, events := s.events ++ [.extRead a v],
                   draws := s.draws + 1 } ∧
      t.reg r3 = v ∧ (∀ q, q ≠ r3 → t.reg q = s.reg q) ∧
      t.cr.toNat = 2 * (v.getLsbD 9).toNat + (v.getLsbD 8).toNat

/-- Where RER stops, in the order of R110. -/
def Obligations.RerStops : Prop :=
  ∀ (r3 : RegNum) (a : ExtAddr) (s : State),
    (r3 = 0 → exec (.rer r3 a) s = .refused .r3Zero) ∧
    (r3 ≠ 0 → s.mode = .user → exec (.rer r3 a) s = .fault (.privilegeViolation s.pc)) ∧
    (r3 ≠ 0 → s.mode = .system → extAnswers s.config a = false → exec (.rer r3 a) s = .refused .noExternalRegister)

/-- R113: a WER to A = 16·p + 2·d + c delivers the control word to I/O Processor p, device d, first (c = 0) or second (c = 1)
register, and to no other. -/
def Obligations.WerDeliversTheControlWord : Prop :=
  ∀ (p d c : Nat) (r3 : RegNum) (s t : State), p ≤ 7 → d ≤ 7 → c ≤ 1 →
    exec (.wer r3 (BitVec.ofNat 8 (16 * p + 2 * d + c))) s = .next t →
    t.controlWord p d (decide (c = 1)) = some (s.reg r3) ∧
    (∀ p' d' second, (p', d', second) ≠ (p, d, decide (c = 1)) →
      t.controlWord p' d' second = s.controlWord p' d' second)

/-- No other instruction delivers a control word; a read of an external register leaves the units as they are (R33, R114). -/
def Obligations.OnlyWerDeliversControlWords : Prop :=
  ∀ (i : Instr) (s t : State), (∀ r3 a, i ≠ .wer r3 a) → exec i s = .next t →
    (∀ p d second, t.controlWord p d second = s.controlWord p d second) ∧ t.controlWordSent = s.controlWordSent

/-- R115, R116: the fields account for all the bits of the two control words. -/
def Obligations.ControlWordFields : Prop :=
  (∀ cw1 : Word,
    cw1.toNat = 2 ^ 15 * (cw1WordMode cw1).toNat + 2 ^ 14 * (cw1FromMemory cw1).toNat
      + 2 ^ 12 * (cw1Extension cw1).toNat + cw1Length cw1 ∧ cw1Length cw1 ≤ 4095) ∧
  (∀ cw2 : Word, cw2.toNat = 2 * (cw2WordAddress cw2).toNat + (cw2RightHand cw2).toNat)

/-- The narrow reading of R66: the characters S … S + N·unit − 1 of a CU → MEM transfer, S = cw1<2:3> ∥ cw2<0:14> ∥ c. -/
def Obligations.NarrowTransferFootprint : Prop :=
  ∀ (cw1 cw2 : Word) (p : Nat),
    transferCovers cw1 cw2 p = true ↔
      cw1FromMemory cw1 = false ∧
      (if cw1WordMode cw1 then
        2 ^ 16 * (cw1Extension cw1).toNat + 2 * (cw2WordAddress cw2).toNat ≤ p ∧
          p < 2 ^ 16 * (cw1Extension cw1).toNat + 2 * (cw2WordAddress cw2).toNat + 2 * cw1Length cw1
      else
        2 ^ 16 * (cw1Extension cw1).toNat + cw2.toNat ≤ p ∧
          p < 2 ^ 16 * (cw1Extension cw1).toNat + cw2.toNat + cw1Length cw1)

/-! ## The segment-table registers -/

/-- TLR, TL and TL* complete: TR0–TR15 take the sixteen words, read with the translation in force before the instruction
(R131, R132, R136); nothing else changes but the history and the program counter. -/
def Obligations.SegmentLoadsComplete : Prop :=
  ∀ (s : State) (r2 : RegNum) (m : Word) (ps : Vector Nat 16) (ws : Vector Word 16),
    s.config.model = .p857m → s.config.hasMmu = true → s.mode = .system → Quiet s →
    (r2 ≠ 0 → BlockReads s (s.reg r2) ps ws →
      exec (.tlr r2) s =
        .next { s with tr := ws, pc := s.pc + 2#16, events := s.events ++ readEvents ps ws }) ∧
    (BlockReads s (if r2 = 0 then m else m + s.reg r2) ps ws →
      exec (.tl r2 m) s =
        .next { s with tr := ws, pc := s.pc + 4#16, events := s.events ++ readEvents ps ws }) ∧
    (∀ p e, accessible s (if r2 = 0 then m else m + s.reg r2) .read = some (p, e) → BlockReads s e ps ws →
      exec (.tlInd r2 m) s =
        .next { s with tr := ws, pc := s.pc + 4#16, events := s.events ++ [.read p e] ++ readEvents ps ws })

/-- TSR, TS and TS* complete: the sixteen words go to memory in ascending order (R133, R134, R68), the pointer of TS* being read
first (spec/90_conflicts.md C3); nothing else changes but the history and the program counter. -/
def Obligations.SegmentStoresComplete : Prop :=
  ∀ (s : State) (r2 : RegNum) (m : Word) (ps : Vector Nat 16),
    s.config.model = .p857m → s.config.hasMmu = true → s.mode = .system → Quiet s →
    (r2 ≠ 0 → BlockStores s (s.reg r2) ps →
      ∃ t, exec (.tsr r2) s = .next t ∧ StoredBlock s t 2#16 [] ps s.tr) ∧
    (BlockStores s (if r2 = 0 then m else m + s.reg r2) ps →
      ∃ t, exec (.ts r2 m) s = .next t ∧ StoredBlock s t 4#16 [] ps s.tr) ∧
    (∀ p e, accessible s (if r2 = 0 then m else m + s.reg r2) .read = some (p, e) → BlockStores s e ps →
      ∃ t, exec (.tsInd r2 m) s = .next t ∧ StoredBlock s t 4#16 [.read p e] ps s.tr)

/-- R130 steps 1 to 3: what stops the instructions of the MMU before the effective address, and in which order. -/
def Obligations.SegmentChecksStop : Prop :=
  ∀ (i : Instr) (s : State), usesMmu i = true →
    (t3Zero i = true → exec i s = .refused .r2ZeroT3) ∧
    (t3Zero i = false → ¬(s.config.model = .p857m ∧ s.config.hasMmu = true) →
      exec i s = .fault (.notInstalled s.pc)) ∧
    (t3Zero i = false → s.config.model = .p857m → s.config.hasMmu = true → s.mode = .user →
      exec i s = .fault (.privilegeViolation s.pc))

/-- Storing the segment table and loading it back leaves it as it was (spec/95_test_vectors.md S14), under its premises: the
identity translation, memory at the block outside the program text, quiet I/O Processors. -/
def Obligations.SegmentTableRoundTrip : Prop :=
  ∀ (s : State) (r2 : RegNum), r2 ≠ 0 → s.config.model = .p857m → s.config.hasMmu = true → s.config.translation = [] →
    s.mode = .system → Quiet s → isEven (s.reg r2) = true →
    (∀ k < 16, wordPresent s.config (s.reg r2 + BitVec.ofNat 16 (2 * k)).toNat = true ∧
      wordInText s.config (s.reg r2 + BitVec.ofNat 16 (2 * k)).toNat = false) →
    ∃ t u, exec (.tsr r2) s = .next t ∧ exec (.tlr r2) t = .next u ∧
      u.tr = s.tr ∧ u.x = s.x ∧ u.cr = s.cr ∧ u.fpa = s.fpa ∧ u.mem = t.mem ∧ u.pc = s.pc + 4#16

/-! ## The floating-point accumulators -/

/-- FLDR, FLD and FLD* complete: the accumulators take the operand and CR its class (R151–R153). -/
def Obligations.FloatLoadsComplete : Prop :=
  ∀ (s : State) (r2 : RegNum) (m : Word) (ps : Vector Nat 3) (ws : Vector Word 3),
    s.config.model = .p857m → s.config.hasFfp = true → (s.config.fpSystemOnly = false ∨ s.mode = .system) → Quiet s →
    (r2 ≠ 0 → BlockReads s (s.reg r2) ps ws →
      ∃ t, exec (.fldr r2) s = .next t ∧ LoadedOperand s t 2#16 [] ps ws) ∧
    (BlockReads s (if r2 = 0 then m else m + s.reg r2) ps ws →
      ∃ t, exec (.fld r2 m) s = .next t ∧ LoadedOperand s t 4#16 [] ps ws) ∧
    (∀ p e, accessible s (if r2 = 0 then m else m + s.reg r2) .read = some (p, e) → BlockReads s e ps ws →
      ∃ t, exec (.fldInd r2 m) s = .next t ∧ LoadedOperand s t 4#16 [.read p e] ps ws)

/-- R156: after an unnormalized operand CR is 3, the program counter advances, no fault is raised; of the accumulators nothing
is said. -/
def Obligations.AbortedLoadSetsConditionThree : Prop :=
  ∀ (s : State) (r2 : RegNum) (m : Word) (ps : Vector Nat 3) (ws : Vector Word 3),
    s.config.model = .p857m → s.config.hasFfp = true → (s.config.fpSystemOnly = false ∨ s.mode = .system) → Quiet s →
    fpClass s.config ws = .unnormalized →
    (r2 ≠ 0 → BlockReads s (s.reg r2) ps ws →
      ∃ t, exec (.fldr r2) s = .next t ∧ t.cr = 3#2 ∧ t.pc = s.pc + 2#16 ∧ t.mem = s.mem ∧ t.x = s.x) ∧
    (BlockReads s (if r2 = 0 then m else m + s.reg r2) ps ws →
      ∃ t, exec (.fld r2 m) s = .next t ∧ t.cr = 3#2 ∧ t.pc = s.pc + 4#16 ∧ t.mem = s.mem ∧ t.x = s.x) ∧
    (∀ p e, accessible s (if r2 = 0 then m else m + s.reg r2) .read = some (p, e) → BlockReads s e ps ws →
      ∃ t, exec (.fldInd r2 m) s = .next t ∧ t.cr = 3#2 ∧ t.pc = s.pc + 4#16 ∧ t.mem = s.mem ∧ t.x = s.x)

/-- FSTR, FST and FST* complete: the three accumulators go to memory as they are, the pointer of FST* being read first
(R154, R155); nothing else changes but the history and the program counter. -/
def Obligations.FloatStoresComplete : Prop :=
  ∀ (s : State) (r2 : RegNum) (m : Word) (ps : Vector Nat 3),
    s.config.model = .p857m → s.config.hasFfp = true → (s.config.fpSystemOnly = false ∨ s.mode = .system) → Quiet s →
    (r2 ≠ 0 → BlockStores s (s.reg r2) ps →
      ∃ t, exec (.fstr r2) s = .next t ∧ StoredBlock s t 2#16 [] ps s.fpa) ∧
    (BlockStores s (if r2 = 0 then m else m + s.reg r2) ps →
      ∃ t, exec (.fst r2 m) s = .next t ∧ StoredBlock s t 4#16 [] ps s.fpa) ∧
    (∀ p e, accessible s (if r2 = 0 then m else m + s.reg r2) .read = some (p, e) → BlockStores s e ps →
      ∃ t, exec (.fstInd r2 m) s = .next t ∧ StoredBlock s t 4#16 [.read p e] ps s.fpa)

/-- R150 steps 1 to 3: what stops the instructions of the Floating Point Processor before the effective address. -/
def Obligations.FloatChecksStop : Prop :=
  ∀ (i : Instr) (s : State), usesFfp i = true →
    (t3Zero i = true → exec i s = .refused .r2ZeroT3) ∧
    (t3Zero i = false → ¬(s.config.model = .p857m ∧ s.config.hasFfp = true) →
      exec i s = .fault (.notInstalled s.pc)) ∧
    (t3Zero i = false → s.config.model = .p857m → s.config.hasFfp = true → s.config.fpSystemOnly = true →
      s.mode = .user → exec i s = .fault (.privilegeViolation s.pc))

/-- Storing the accumulators and loading them back leaves them as they were, unless the operand is unnormalized. -/
def Obligations.AccumulatorRoundTrip : Prop :=
  ∀ (s : State) (r2 : RegNum), r2 ≠ 0 → s.config.model = .p857m → s.config.hasFfp = true →
    (s.config.hasMmu = false ∨ s.config.translation = []) → (s.config.fpSystemOnly = false ∨ s.mode = .system) → Quiet s →
    isEven (s.reg r2) = true →
    (∀ k < 3, wordPresent s.config (s.reg r2 + BitVec.ofNat 16 (2 * k)).toNat = true ∧
      wordInText s.config (s.reg r2 + BitVec.ofNat 16 (2 * k)).toNat = false) →
    fpClass s.config s.fpa ≠ .unnormalized →
    ∃ t u, exec (.fstr r2) s = .next t ∧ exec (.fldr r2) t = .next u ∧
      u.fpa = s.fpa ∧ u.x = s.x ∧ u.tr = s.tr ∧ u.mem = t.mem ∧ u.draws = s.draws ∧ u.pc = s.pc + 4#16

/-! ## Where block transfers stop, and that they complete beside the I/O Processors -/

/-- R52: an odd block address, an odd pointer address and an odd pc are refused. -/
def Obligations.OddAddressesAreRefused : Prop :=
  ∀ (i : Instr) (s : State),
    (∀ e, Ready i s → blockAddress s i = some e → isEven e = false → exec i s = .refused .oddAddress) ∧
    (∀ a, Ready i s → pointerAddress s i = some a → isEven a = false → exec i s = .refused .oddAddress) ∧
    (∀ a p e, Ready i s → pointerAddress s i = some a → accessible s a .read = some (p, e) → isEven e = false →
      exec i s = .refused .oddAddress) ∧
    (isEven s.pc = false → step s = .refused .oddAddress)

/-- R173 (6): the first word transfer of a load that cannot be made ends the instruction, by a translation fault, for want of
memory, or because nothing has written the word. Two clauses go further by the model's choice: R53 speaks of the address `p` of
the word alone, and that the load is refused also where only the second character of the word is absent is log 20 (DEDUCED);
that a character which nothing has written stops it is log 5 (DESIGN CHOICE). -/
def Obligations.FirstBadReadStops : Prop :=
  ∀ (i : Instr) (s : State) (e : Word) (k : Nat), Ready i s → storesMemory i = false → Quiet s →
    BlockAt i s e → isEven e = true → k < wordsMoved i →
    (∀ j < k, (accessible s (e + BitVec.ofNat 16 (2 * j)) .read).isSome = true) →
    (translate s.config s.tr s.mode (e + BitVec.ofNat 16 (2 * k)) .read = none →
      exec i s = .fault (.addressFault (e + BitVec.ofNat 16 (2 * k)))) ∧
    (∀ p, translate s.config s.tr s.mode (e + BitVec.ofNat 16 (2 * k)) .read = some p →
      (wordPresent s.config p = false → exec i s = .refused .noMemory) ∧
      (wordPresent s.config p = true → s.mem.readWord p = none → exec i s = .fault (.unwrittenMemory p)))

/-- R173 (6), R64: the first word transfer of a store that cannot be made ends the instruction, by a translation fault, for
want of memory, or because it goes to the program text. R53, R54 and R64 speak of the address `p` of the word; that either of
its two characters, the second one alone too, refuses the store where it is absent or program text is the model's choice, log 20
(DEDUCED). That a store into the program text is refused at all is the spec's own decision D21. -/
def Obligations.FirstBadWriteStops : Prop :=
  ∀ (i : Instr) (s : State) (e : Word) (k : Nat), Ready i s → storesMemory i = true →
    BlockAt i s e → isEven e = true → k < wordsMoved i →
    (∀ j < k, (storable s (e + BitVec.ofNat 16 (2 * j))).isSome = true) →
    (translate s.config s.tr s.mode (e + BitVec.ofNat 16 (2 * k)) .write = none →
      exec i s = .fault (.addressFault (e + BitVec.ofNat 16 (2 * k)))) ∧
    (∀ p, translate s.config s.tr s.mode (e + BitVec.ofNat 16 (2 * k)) .write = some p →
      (wordPresent s.config p = false → exec i s = .refused .noMemory) ∧
      (wordPresent s.config p = true → wordInText s.config p = true → exec i s = .refused .storeIntoCode))

/-- R130 step 4, R97: a pointer word that cannot be read ends the instruction: by a translation fault, for want of memory, or
because nothing has written it. Two clauses go further by the model's choice: R53 speaks of the address `p` of the word alone,
and that the pointer is refused also where only its second character is absent is log 20 (DEDUCED); that a character which
nothing has written stops it is log 5 (DESIGN CHOICE). -/
def Obligations.BadPointerStops : Prop :=
  ∀ (i : Instr) (s : State) (a : Word), Ready i s → pointerAddress s i = some a → isEven a = true →
    (translate s.config s.tr s.mode a .read = none → exec i s = .fault (.addressFault a)) ∧
    (∀ p, translate s.config s.tr s.mode a .read = some p →
      (wordPresent s.config p = false → exec i s = .refused .noMemory) ∧
      (wordPresent s.config p = true → s.mem.readWord p = none → exec i s = .fault (.unwrittenMemory p)))

/-- The block instructions complete whatever the I/O Processors write between their transfers (R66, R68): a turn takes no
value away and moves no address. The turn, and where it stands, are the model's choice, log 11 (DESIGN CHOICE). -/
def Obligations.BlocksCompleteBesideTransfers : Prop :=
  ∀ (i : Instr) (s : State), Ready i s →
    (∀ e, blockAddress s i = some e → storesMemory i = false →
      (∀ k < wordsMoved i, (accessible s (e + BitVec.ofNat 16 (2 * k)) .read).isSome = true) → ∃ t, exec i s = .next t) ∧
    (∀ e, blockAddress s i = some e → storesMemory i = true →
      (∀ k < wordsMoved i, (storable s (e + BitVec.ofNat 16 (2 * k))).isSome = true) → ∃ t, exec i s = .next t) ∧
    (∀ a p e, pointerAddress s i = some a → accessible s a .read = some (p, e) → storesMemory i = false →
      (∀ k < wordsMoved i, (accessible s (e + BitVec.ofNat 16 (2 * k)) .read).isSome = true) → ∃ t, exec i s = .next t) ∧
    (∀ a p e, pointerAddress s i = some a → accessible s a .read = some (p, e) → storesMemory i = true →
      (∀ k < wordsMoved i, (storable s (e + BitVec.ofNat 16 (2 * k))).isSome = true) → ∃ t, exec i s = .next t)

/-- R57: address sums are taken modulo 2^16; a block that runs past 0xFFFE continues at 0x0000. -/
def Obligations.AddressSumsWrap : Prop :=
  ∀ (s : State) (r2 : RegNum) (m e : Word) (k : Nat), k < 16 →
    (eaDirect s r2 m).toNat = (if r2 = 0 then m.toNat else (m.toNat + (s.reg r2).toNat) % 65536) ∧
    (blockAddr e k).toNat = (e.toNat + 2 * k) % 65536 ∧
    (isEven e = true → isEven (blockAddr e k) = true)

/-! ## Frames

Where a statement compares two outcomes, the environment answers alike in both: the free values are the same (log 9, log 11). -/

/-- R22: RER writes r3; no other instruction writes a general register, and an instruction's outcome depends on no general
register but the one R22 says it reads. -/
def Obligations.GeneralRegistersReadAndWritten : Prop :=
  ∀ (i : Instr) (s : State),
    (∀ t, exec i s = .next t → ∀ r, registerWritten i ≠ some r → t.reg r = s.reg r) ∧
    (∀ r v, registerRead i ≠ some r →
      exec i (s.setReg r v) =
        match exec i s with
        | .next t => .next (if registerWritten i = some r then t else t.setReg r v)
        | .fault f => .fault f
        | .refused x => .refused x)

/-- R26: only RER, FLDR and FLD write CR; RER sets it from bits 6 and 7 of the value it loads; no instruction reads CR. -/
def Obligations.ConditionRegisterFrame : Prop :=
  ∀ (i : Instr) (s : State),
    (∀ t, exec i s = .next t → writesCr i = false → t.cr = s.cr) ∧
    (∀ t r3 a, exec (.rer r3 a) s = .next t → t.cr = (t.reg r3).extractLsb' 8 2) ∧
    (∀ v, exec i (s.setCr v) =
        match exec i s with
        | .next t => .next (if writesCr i then t else t.setCr v)
        | .fault f => .fault f
        | .refused x => .refused x)

/-- R29, R30: TR0–TR15 are written by TLR and TL alone, FPA1–FPA3 by FLDR and FLD alone. -/
def Obligations.UnitRegistersFrame : Prop :=
  ∀ (i : Instr) (s t : State), exec i s = .next t →
    (writesTr i = false → t.tr = s.tr) ∧ (writesFpa i = false → t.fpa = s.fpa)

/-- An instruction that completes advances the program counter by its length, modulo 2^16; a two-word instruction at 0xFFFE is
refused (R25, R99). The program counter and the lengths are the spec's own decisions D1 and D2, and log 19 of this model
(DEDUCED). -/
def Obligations.ProgramCounterAdvances : Prop :=
  (∀ (i : Instr) (s t : State), exec i s = .next t → t.pc = s.pc + BitVec.ofNat 16 i.length) ∧
  (∀ (r : RegNum) (a : ExtAddr) (m : Word),
    (∀ i ∈ [Instr.wer r a, .rer r a, .tlr r, .tsr r, .fldr r, .fstr r], i.length = 2) ∧
    (∀ i ∈ [Instr.tl r m, .tlInd r m, .ts r m, .tsInd r m, .fld r m, .fldInd r m, .fst r m, .fstInd r m], i.length = 4)) ∧
  (∀ s t : State, step s = .next t → t.pc = s.pc + 2#16 ∨ t.pc = s.pc + 4#16) ∧
  (∀ (s : State) (p : Nat) (w : Word), accessible s s.pc .fetch = some (p, w) →
    needsSecondWord s.config.encoding w = true → s.pc = 0xFFFE#16 → step s = .refused .pcWrap)

/-- The instructions that store nothing leave every character of memory (R111, R112, R131, R132, R152, R153; R118). -/
def Obligations.NonStoringInstructionsLeaveMemory : Prop :=
  ∀ (i : Instr) (s t : State), Quiet s → storesMemory i = false → exec i s = .next t → t.mem = s.mem

/-- The storing instructions leave every character outside the words they store to (R133, R134, R154, R155), whatever the
translation maps where. -/
def Obligations.StoringInstructionsLeaveTheRest : Prop :=
  ∀ (i : Instr) (s t : State) (e : Word), Quiet s → storesMemory i = true → exec i s = .next t →
    BlockAt i s e →
    ∀ b, (∀ k < wordsMoved i, ∀ p, translate s.config s.tr s.mode (e + BitVec.ofNat 16 (2 * k)) .write = some p →
        outsideWord b p) →
      t.mem.readByte b = s.mem.readByte b

/-- Without the MMU the contents of TR0–TR15 make no difference (R58). -/
def Obligations.SegmentRegistersMatterOnlyToTheMmu : Prop :=
  ∀ (i : Instr) (s : State) (v : Vector Word 16), s.config.hasMmu = false →
    exec i (s.setTr v) =
      match exec i s with
      | .next t => .next (t.setTr v)
      | .fault f => .fault f
      | .refused x => .refused x

/-! ## Rules of the whole machine -/

/-- The machine right after reset satisfies the invariant (the reset values are the model's choice, log 2 and log 3). -/
def Obligations.ResetSatisfiesTheInvariant : Prop := State.reset.Inv

/-- EVERY STEP KEEPS THE INVARIANT: memory in canonical form and only where there is memory, an even program counter. It rests on
the model's choices log 20 (DEDUCED: no store to a word of which one character is absent) and log 11 (DESIGN CHOICE: a turn of the
I/O Processors passes over absent memory). -/
def Obligations.StepKeepsTheInvariant : Prop := ∀ s t : State, s.Inv → step s = .next t → t.Inv

/-- A store into the program text is refused, no I/O Processor writes it, and so no step changes a character of it: every fetch of
a word of it finds the word that was there (R64). This is the spec's own decision D21; that one character of a word in the text
refuses the store is log 20 of this model (DEDUCED), that a turn of the I/O Processors passes over the text is log 11 (DESIGN
CHOICE). -/
def Obligations.ProgramTextNeverChanges : Prop :=
  (∀ s t : State, step s = .next t →
    ∀ a, inSpans s.config.programText a = true → t.mem.readByte a = s.mem.readByte a) ∧
  (∀ (i : Instr) (s : State) (e : Word) (k p : Nat), Ready i s → storesMemory i = true →
    BlockAt i s e → isEven e = true → k < wordsMoved i →
    (∀ j < k, (storable s (e + BitVec.ofNat 16 (2 * j))).isSome = true) →
    translate s.config s.tr s.mode (e + BitVec.ofNat 16 (2 * k)) .write = some p → wordPresent s.config p = true →
    wordInText s.config p = true → exec i s = .refused .storeIntoCode) ∧
  (∀ (s : State) (a : Nat), inSpans s.config.programText a = true →
    (ioTurn s).mem.readByte a = s.mem.readByte a)

/-- No step enters or leaves a mode (R177) or changes a parameter (R36). -/
def Obligations.ModeAndConfigurationNeverChange : Prop :=
  ∀ s t : State, step s = .next t → t.mode = s.mode ∧ t.config = s.config

/-- The history only grows, at its end, by at most seventeen events: a pointer and sixteen words (R32, R53–R55). The bound rests on
log 28 (DEDUCED): a fetch records no event. -/
def Obligations.HistoryOnlyGrows : Prop :=
  ∀ s t : State, step s = .next t → ∃ l, t.events = s.events ++ l ∧ l.length ≤ 17

/-- USER MODE IS CONFINED (R177): a step in user mode changes no general register and no segment-table register, sends nothing
to and asks nothing of an external register, and stays in user mode. -/
def Obligations.UserModeIsConfined : Prop :=
  ∀ s t : State, s.mode = .user → step s = .next t →
    t.mode = .user ∧ t.x = s.x ∧ t.tr = s.tr ∧ t.config = s.config ∧
      ∃ l, t.events = s.events ++ l ∧ ∀ ev ∈ l, ∃ p v, ev = .read p v ∨ ev = .write p v

/-- In user mode a restricted instruction never completes, and one that its earlier checks let pass faults (R172, R177). -/
def Obligations.RestrictedInstructionsFaultInUserMode : Prop :=
  ∀ (i : Instr) (s : State), s.mode = .user → restricted i = true →
    (∀ t, exec i s ≠ .next t) ∧
    (i.wellFormed = true → (usesMmu i = true → s.config.model = .p857m ∧ s.config.hasMmu = true) →
      (∀ r3 a, i = .wer r3 a → iopNumberOf a ≤ iopMax s.config.model) →
      exec i s = .fault (.privilegeViolation s.pc))

/-- A turn of the I/O Processors happens only after a control word, changes nothing but memory, and there only characters that
exist, are no program text and lie in the footprint (R64, R66). The turn itself is the model's choice, log 11 (DESIGN CHOICE), and
so is that it passes over program text and absent memory under any footprint; the rules ask of the footprint that it does not
meet the program text. -/
def Obligations.IoTurnsAreConfined : Prop :=
  ∀ s : State,
    (Quiet s → ioTurn s = s) ∧ MemoryOnly s (ioTurn s) ∧ (ioTurn s).events = s.events ∧
    (∀ a, (inSpans s.config.memPresent a = false ∨ inSpans s.config.programText a = true ∨
        inFootprint s.config s.events a = false) → (ioTurn s).mem.readByte a = s.mem.readByte a)

/-- What has been written stays readable: no step takes the value of a character away (the model's choice, log 5). -/
def Obligations.WrittenMemoryStaysReadable : Prop :=
  ∀ s t : State, step s = .next t → ∀ a, (s.mem.readByte a).isSome = true → (t.mem.readByte a).isSome = true

/-- The table in which the configuration holds `Translate` loses nothing: every total function of the four arguments of R58 is
the meaning of some table (log 7). -/
def Obligations.EveryTranslationIsATable : Prop :=
  ∀ f : Vector Word 16 → Mode → Word → AccessKind → Option Nat, ∃ rows : List TranslateRow,
    ∀ c : Config, c.hasMmu = true → c.translation = rows →
      ∀ tr mode addr kind, translate c tr mode addr kind = f tr mode addr kind

/-- The table in which the configuration holds `FpClass` loses nothing: every total function of the 48 bits of R151 is the
meaning of some table (log 8). -/
def Obligations.EveryClassificationIsATable : Prop :=
  ∀ f : Vector Word 3 → FpClass, ∃ rows : List FpClassRow,
    ∀ c : Config, c.fpClasses = rows → ∀ ws, fpClass c ws = f ws

/-- The table in which the configuration holds `IopFootprint` loses nothing that a run can reach: for every function of the control
words, and any bounds on how many have been delivered and on the addresses, there is a table that is that function (log 35). -/
def Obligations.EveryFootprintIsATable : Prop :=
  ∀ (f : List (ExtAddr × Word) → Nat → Bool) (most size : Nat), ∃ table : List FootprintRow,
    ∀ (c : Config) (events : List Event) (p : Nat), c.footprint = .listed table →
      (controlWordsOf events).length ≤ most → p < size →
      inFootprint c events p = f (controlWordsOf events) p

/-! ## Launches and runs -/

/-- Under `InterruptsInhibited` a run of the chip is a run of the model (R174): the premise closes the gap that the model takes no
interrupt (log 15). -/
def Obligations.InhibitedRunsAreRunsOfTheModel : Prop :=
  ∀ r : ChipRun, r.Follows → r.InterruptsInhibited →
    Host.Core.run Sys2Proof.core r.moves.length r.start = .next r.last

/-- "Every fetch returns the word the launch loaded" (R64), under the launch premises of R191: in every state of a launched run, a
fetch that is translated to a word of the program text finds the word of the launch. It rests on the spec's own decision D21 and
on logs 11, 15 and 20. -/
def Obligations.LaunchedWordsAreFetchedThroughoutTheRun : Prop :=
  ∀ (l : Launch) (r : ChipRun), r.Follows → LaunchPremises l r → ∀ t ∈ r.states,
    ∀ (addr : Word) (p : Nat) (w : Word), (p, w) ∈ l.text → isEven addr = true →
      translate t.config t.tr t.mode addr .fetch = some p → accessible t addr .fetch = some (p, w)

/-- The mode is constant over a run and fixed by the launch premise (R177, R191), and system mode where the program uses a restricted
instruction; so is the configuration (R36). That no interrupt changes it is the premise `InterruptsInhibited` (log 15). -/
def Obligations.LaunchedModeHoldsThroughoutTheRun : Prop :=
  ∀ (l : Launch) (r : ChipRun), r.Follows → LaunchPremises l r → ∀ t ∈ r.states,
    t.mode = l.mode ∧ t.config = r.start.config ∧ (l.needsSystem r.start.config.encoding = true → t.mode = .system)

/-- A launch is taken to need system mode exactly if its program holds a restricted instruction (R177, R191): whatever instructions
the words of the program text encode, under any admissible choice of the open parameters. -/
def Obligations.NeedsSystemIffARestrictedInstruction : Prop :=
  ∀ (e : Encoding) (program : List Instr) (l : Launch), e.valid = true → (∀ i ∈ program, e.admits i = true) →
    l.text.map Prod.snd = program.flatMap (encode e) →
    (l.needsSystem e = true ↔ ∃ i ∈ program, restricted i = true)
end

