-- ==== Sys2Proof/Laws/Memory.lean ====
section
/-! SUPPORT. The laws of memory: reading after writing, and the canonical form. -/

namespace Sys2Proof.Machine

theorem Memory.readByte_writeByte_same (m : Memory) (a : Nat) (v : Byte) : (m.writeByte a v).readByte a = some v := by
  induction m with
  | nil => simp [Memory.writeByte, Memory.readByte]
  | cons c rest ih =>
    obtain ⟨k, u⟩ := c
    simp only [Memory.writeByte]
    split_ifs with h1 h2
    · simp [Memory.readByte]
    · simp [Memory.readByte]
    · simp [Memory.readByte, ih, Ne.symm h2]

theorem Memory.readByte_writeByte_other (m : Memory) {a b : Nat} (v : Byte) (h : b ≠ a) :
    (m.writeByte a v).readByte b = m.readByte b := by
  induction m with
  | nil => simp [Memory.writeByte, Memory.readByte, Ne.symm h]
  | cons c rest ih =>
    obtain ⟨k, u⟩ := c
    simp only [Memory.writeByte]
    split_ifs with h1 h2
    · simp [Memory.readByte, Ne.symm h]
    · subst h2; simp [Memory.readByte, Ne.symm h]
    · simp [Memory.readByte, ih]

/-- What a character reads as after a write: the written value there, the old value elsewhere. -/
theorem Memory.readByte_writeByte (m : Memory) (a b : Nat) (v : Byte) :
    (m.writeByte a v).readByte b = if b = a then some v else m.readByte b := by
  split_ifs with h
  · rw [h, Memory.readByte_writeByte_same]
  · exact Memory.readByte_writeByte_other m v h

theorem Memory.mem_writeByte {m : Memory} {a : Nat} {v : Byte} {c : Host.Cell} (h : c ∈ m.writeByte a v) :
    c = (a, v) ∨ c ∈ m := by
  induction m with
  | nil => simpa [Memory.writeByte] using h
  | cons d rest ih =>
    obtain ⟨k, u⟩ := d
    simp only [Memory.writeByte] at h
    split_ifs at h with h1 h2
    · simpa using h
    · rcases List.mem_cons.1 h with h | h <;> simp [h]
    · rcases List.mem_cons.1 h with h | h
      · simp [h]
      · rcases ih h with h | h <;> simp [h]

/-- Writing a character keeps the canonical form. -/
theorem Memory.writeByte_wf {m : Memory} (h : m.wf) (a : Nat) (v : Byte) : (m.writeByte a v).wf := by
  induction m with
  | nil => simp [Memory.writeByte, Memory.wf]
  | cons d rest ih =>
    obtain ⟨k, u⟩ := d
    have hr := List.pairwise_cons.1 h
    simp only [Memory.writeByte]
    split_ifs with h1 h2
    · refine List.pairwise_cons.2 ⟨fun c hc => ?_, h⟩
      rcases List.mem_cons.1 hc with rfl | hc
      · exact h1
      · exact lt_trans h1 (hr.1 c hc)
    · subst h2
      exact List.pairwise_cons.2 ⟨fun c hc => hr.1 c hc, hr.2⟩
    · refine List.pairwise_cons.2 ⟨fun c hc => ?_, ih hr.2⟩
      rcases Memory.mem_writeByte hc with rfl | hc
      · change k < a; omega
      · exact hr.1 c hc

/-- Writing a word keeps the canonical form. -/
theorem Memory.writeWord_wf {m : Memory} (h : m.wf) (p : Nat) (v : Word) : (m.writeWord p v).wf :=
  Memory.writeByte_wf (Memory.writeByte_wf h _ _) _ _

/-- What a character reads as after a word has been written. -/
theorem Memory.readByte_writeWord (m : Memory) (p a : Nat) (v : Word) :
    (m.writeWord p v).readByte a =
      if a = p + 1 then some (rightChar v) else if a = p then some (leftChar v) else m.readByte a := by
  rw [Memory.writeWord, Memory.readByte_writeByte, Memory.readByte_writeByte]

theorem joinChars_left_right (v : Word) : joinChars (leftChar v) (rightChar v) = v := by
  apply BitVec.eq_of_getLsbD_eq
  intro i hi
  simp only [joinChars, leftChar, rightChar, BitVec.getLsbD_append, BitVec.getLsbD_extractLsb']
  by_cases h : i < 8
  · simp [h]
  · simp [h, show i - 8 < 8 by omega, show 8 + (i - 8) = i by omega]

@[simp] theorem leftChar_joinChars (l r : Byte) : leftChar (joinChars l r) = l := by
  apply BitVec.eq_of_getLsbD_eq
  intro i hi
  simp only [leftChar, joinChars, BitVec.getLsbD_extractLsb', BitVec.getLsbD_append]
  simp [hi]

@[simp] theorem rightChar_joinChars (l r : Byte) : rightChar (joinChars l r) = r := by
  apply BitVec.eq_of_getLsbD_eq
  intro i hi
  simp only [rightChar, joinChars, BitVec.getLsbD_extractLsb', BitVec.getLsbD_append]
  simp [hi]

/-- Writing a word and reading it back. -/
theorem Memory.readWord_writeWord_same (m : Memory) (p : Nat) (v : Word) : (m.writeWord p v).readWord p = some v := by
  simp [Memory.readWord, Memory.readByte_writeWord, joinChars_left_right]

/-- Writing a word leaves the words that share no character with it. -/
theorem Memory.readWord_writeWord_apart (m : Memory) {p q : Nat} (v : Word) (h : p + 2 ≤ q ∨ q + 2 ≤ p) :
    (m.writeWord p v).readWord q = m.readWord q := by
  simp only [Memory.readWord, Memory.readByte_writeWord]
  rw [if_neg (by omega), if_neg (by omega), if_neg (by omega), if_neg (by omega)]

theorem Memory.readWord_isSome {m : Memory} {p : Nat} :
    (m.readWord p).isSome ↔ (m.readByte p).isSome ∧ (m.readByte (p + 1)).isSome := by
  unfold Memory.readWord
  cases m.readByte p <;> cases m.readByte (p + 1) <;> simp

/-- Memories in canonical form that read alike are equal. -/
theorem Memory.ext_of_readByte {m n : Memory} (hm : m.wf) (hn : n.wf) (h : ∀ a, m.readByte a = n.readByte a) : m = n := by
  have key : ∀ (l : Memory), l.wf → ∀ a, (∀ c ∈ l, a < c.1) → l.readByte a = none := by
    intro l
    induction l with
    | nil => intro _ a _; rfl
    | cons c rest ih =>
      intro hw a ha
      obtain ⟨k, u⟩ := c
      have hk : a < k := ha (k, u) (by simp)
      have hr := List.pairwise_cons.1 hw
      simp only [Memory.readByte, if_neg (show ¬k = a by omega)]
      exact ih hr.2 a fun c hc => lt_trans hk (hr.1 c hc)
  induction m generalizing n with
  | nil =>
    cases n with
    | nil => rfl
    | cons c rest => have := h c.1; simp [Memory.readByte] at this
  | cons c rest ih =>
    obtain ⟨k, u⟩ := c
    cases n with
    | nil => have := h k; simp [Memory.readByte] at this
    | cons d rest' =>
      obtain ⟨k', u'⟩ := d
      have hr := List.pairwise_cons.1 hm
      have hr' := List.pairwise_cons.1 hn
      have hk : k = k' := by
        by_contra hne
        rcases lt_or_gt_of_ne hne with hlt | hlt
        · have h1 := h k
          rw [key _ hn k (by
            intro c hc
            rcases List.mem_cons.1 hc with rfl | hc
            · exact hlt
            · exact lt_trans hlt (hr'.1 c hc))] at h1
          simp [Memory.readByte] at h1
        · have h1 := h k'
          rw [key _ hm k' (by
            intro c hc
            rcases List.mem_cons.1 hc with rfl | hc
            · exact hlt
            · exact lt_trans hlt (hr.1 c hc))] at h1
          simp [Memory.readByte] at h1
      subst hk
      have hu : u = u' := by have := h k; simpa [Memory.readByte] using this
      subst hu
      congr 1
      refine ih hr.2 hr'.2 fun a => ?_
      by_cases ha : k = a
      · subst ha
        rw [key _ hr.2 k (fun c hc => hr.1 c hc), key _ hr'.2 k (fun c hc => hr'.1 c hc)]
      · have := h a
        simpa [Memory.readByte, ha] using this

end Sys2Proof.Machine
end

