-- ==== Sys2Proof/Laws/Decode.lean ====
section
/-! SUPPORT. The laws of bit fields under a mask, of the rows of the opcode table, and everything the decoder can answer. -/

namespace Sys2Proof

open Sys2Proof.Machine

/-! ## Bit fields under a mask -/

/-- The bits of a scattered number. -/
theorem getLsbD_scatterBits (mask : BitVec 8) (v n : Nat) {k : Nat} (hk : k < 8) :
    (scatterBits mask v n).getLsbD k = (decide (k < n) && (mask.getLsbD k && v.testBit (maskCount mask k))) := by
  induction n with
  | zero => simp [scatterBits]
  | succ n ih =>
    rw [scatterBits, BitVec.getLsbD_or, ih]
    by_cases h : k = n
    · subst h
      cases hc : (mask.getLsbD k && v.testBit (maskCount mask k)) <;> simp [hk]
    · have hz : (if (mask.getLsbD n && v.testBit (maskCount mask n)) = true then BitVec.twoPow 8 n else 0#8).getLsbD k = false := by
        split_ifs
        · rw [BitVec.getLsbD_twoPow]
          simp only [Bool.and_eq_false_iff, decide_eq_false_iff_not]
          exact .inr fun e => h e.symm
        · exact BitVec.getLsbD_zero
      rw [hz, show decide (k < n + 1) = decide (k < n) from by rw [decide_eq_decide]; omega, Bool.or_false]

theorem maskCount_mono (mask : BitVec 8) {a b : Nat} (h : a ≤ b) : maskCount mask a ≤ maskCount mask b := by
  induction b with
  | zero => rw [Nat.le_zero.1 h]
  | succ b ih =>
    by_cases hb : a = b + 1
    · rw [hb]
    · have := ih (by omega)
      rw [maskCount]
      omega

/-- A gathered number fits its field. -/
theorem gatherBits_lt (mask x : BitVec 8) (n : Nat) : gatherBits mask x n < 2 ^ maskCount mask n := by
  induction n with
  | zero => simp [gatherBits, maskCount]
  | succ n ih =>
    rw [gatherBits, maskCount]
    cases mask.getLsbD n
    · simpa using ih
    · cases x.getLsbD n <;> simp [Nat.pow_succ] <;> omega

/-- The bits of a gathered number. -/
theorem testBit_gatherBits (mask x : BitVec 8) {n k : Nat} (hk : k < n) (hm : mask.getLsbD k = true) :
    (gatherBits mask x n).testBit (maskCount mask k) = x.getLsbD k := by
  induction n with
  | zero => omega
  | succ n ih =>
    have hlt := gatherBits_lt mask x n
    rw [gatherBits]
    by_cases h : k = n
    · subst h
      cases hx : x.getLsbD k
      · simpa using Nat.testBit_lt_two_pow hlt
      · simp only [hm, Bool.and_self, if_true]
        rw [Nat.add_comm, Nat.testBit_two_pow_add_eq, Nat.testBit_lt_two_pow hlt]
        rfl
    · have hc : maskCount mask k < maskCount mask n := by
        have := maskCount_mono mask (a := k + 1) (b := n) (by omega)
        rw [maskCount, hm, if_pos rfl] at this
        omega
      split_ifs
      · rw [Nat.add_comm, Nat.testBit_two_pow_add_gt hc]
        exact ih (by omega)
      · exact ih (by omega)

/-- Scattering what was gathered gives the bits under the mask. -/
theorem scatterBits_gatherBits (mask x : BitVec 8) : scatterBits mask (gatherBits mask x 8) 8 = x &&& mask := by
  apply BitVec.eq_of_getLsbD_eq
  intro k hk
  rw [getLsbD_scatterBits _ _ _ hk, BitVec.getLsbD_and]
  cases hm : mask.getLsbD k
  · simp
  · simp [hk, testBit_gatherBits mask x hk hm]

/-- Gathering a byte that holds a scattered number beside other bits gives the number, as far as the field reaches. -/
theorem gatherBits_or_scatterBits (mask hi : BitVec 8) (v : Nat) {n : Nat} (hn : n ≤ 8) (h : hi &&& mask = 0#8) :
    gatherBits mask (hi ||| scatterBits mask v 8) n = v % 2 ^ maskCount mask n := by
  induction n with
  | zero => simp [gatherBits, maskCount, Nat.mod_one]
  | succ n ih =>
    have hb : mask.getLsbD n = true → hi.getLsbD n = false := by
      intro hm
      have := congrArg (·.getLsbD n) h
      simpa [hm] using this
    rw [gatherBits, maskCount, ih (by omega), BitVec.getLsbD_or, getLsbD_scatterBits mask v 8 (by omega)]
    cases hm : mask.getLsbD n
    · simp
    · simp only [hb hm, show n < 8 by omega, decide_true, Bool.true_and, Bool.false_or, if_true]
      rw [Nat.mod_pow_succ, Nat.testBit_eq_decide_div_mod_eq]
      rcases Nat.mod_two_eq_zero_or_one (v / 2 ^ maskCount mask n) with h' | h' <;> simp [h']

/-! ## The rows of the opcode table -/

/-- Disjoint rows share no word. -/
theorem Row.not_both_match {r q : Row} {w : Word} (h : r.disjointFrom q = true) (hr : r.matchesWord w = true)
    (hq : q.matchesWord w = true) : False := by
  simp only [Row.disjointFrom, Row.matchesWord, bne_iff_ne, beq_iff_eq] at h hr hq
  rw [← hr, ← hq] at h
  refine h (BitVec.eq_of_getLsbD_eq fun k _ => ?_)
  simp only [BitVec.getLsbD_and, BitVec.getLsbD_xor, BitVec.getLsbD_zero]
  cases w.getLsbD k <;> cases r.mask.getLsbD k <;> cases q.mask.getLsbD k <;> rfl

/-- Among disjoint rows, the row that is found is the one that matches. -/
theorem findRow_of_matches {e : Encoding} (he : e.disjoint = true) {r : Row} {w : Word} (hr : r ∈ rows e)
    (hm : r.matchesWord w = true) : findRow e w = some r := by
  have key : ∀ l : List Row, (l.Pairwise fun r q => r.disjointFrom q = true) → r ∈ l →
      l.find? (·.matchesWord w) = some r := by
    intro l hp hl
    induction l with
    | nil => cases hl
    | cons a l ih =>
      have hc := List.pairwise_cons.1 hp
      rcases List.mem_cons.1 hl with rfl | hl
      · exact List.find?_cons_of_pos hm
      · have hn : ¬a.matchesWord w = true := fun ha => Row.not_both_match (hc.1 r hl) ha hm
        rw [List.find?_cons_of_neg (p := fun x : Row => x.matchesWord w) hn]
        exact ih hc.2 hl
  exact key _ (of_decide_eq_true he) hr

/-- What a found row is. -/
theorem findRow_some {e : Encoding} {w : Word} {r : Row} (h : findRow e w = some r) :
    r ∈ rows e ∧ r.matchesWord w = true :=
  ⟨List.mem_of_find?_eq_some h, List.find?_some (p := fun x : Row => x.matchesWord w) h⟩

/-! ## Decoding -/

/-- A one-word instruction at the head of a list. -/
theorem decode_oneWord {e : Encoding} {w : Word} {r : Row} (h : findRow e w = some r) (h1 : r.op.twoWords = false)
    (rest : List Byte) : decode e (wordChars w ++ rest) = .ok (build e r.op w 0#16, rest) := by
  simp only [wordChars, List.cons_append, List.nil_append, decode, joinChars_left_right, h, h1, Bool.false_eq_true,
    if_false]

/-- A two-word instruction at the head of a list. -/
theorem decode_twoWords {e : Encoding} {w m : Word} {r : Row} (h : findRow e w = some r) (h1 : r.op.twoWords = true)
    (rest : List Byte) : decode e (wordChars w ++ wordChars m ++ rest) = .ok (build e r.op w m, rest) := by
  simp only [wordChars, List.cons_append, List.nil_append, decode, joinChars_left_right, h, h1, if_true]

/-- A first word of no row is rejected. -/
theorem decode_noRow {e : Encoding} {w : Word} (h : findRow e w = none) (rest : List Byte) :
    decode e (wordChars w ++ rest) = .error (rejectWord e w) := by
  simp only [wordChars, List.cons_append, List.nil_append, decode, joinChars_left_right, h]

/-- Everything the decoder can answer with an instruction. -/
theorem decode_ok {e : Encoding} {i : Instr} {bytes rest : List Byte} (h : decode e bytes = .ok (i, rest)) :
    ∃ r w, findRow e w = some r ∧
      ((r.op.twoWords = false ∧ i = build e r.op w 0#16 ∧ bytes = wordChars w ++ rest) ∨
        ∃ m, r.op.twoWords = true ∧ i = build e r.op w m ∧ bytes = wordChars w ++ wordChars m ++ rest) := by
  unfold decode at h
  split at h
  · rename_i c0 c1 rest'
    dsimp only at h
    split at h
    · cases h
    · rename_i r hr
      refine ⟨r, _, hr, ?_⟩
      split_ifs at h with h2
      · split at h
        · simp only [Except.ok.injEq, Prod.mk.injEq] at h
          obtain ⟨rfl, rfl⟩ := h
          exact .inr ⟨_, h2, rfl, by simp [wordChars]⟩
        · cases h
      · simp only [Except.ok.injEq, Prod.mk.injEq] at h
        obtain ⟨rfl, rfl⟩ := h
        exact .inl ⟨by simpa using h2, rfl, by simp [wordChars]⟩
  · cases h

/-- The length of the instruction built from a row. -/
theorem build_length (e : Encoding) (op : Op) (w m : Word) : (build e op w m).length = if op.twoWords then 4 else 2 := by
  cases op <;> rfl

end Sys2Proof
end

