-- ==== Sys2Proof/Laws/State.lean ====
section
/-! SUPPORT. One lemma per field per update of the state. -/

namespace Sys2Proof.Machine

@[simp] theorem State.setReg_x (s : State) (r : RegNum) (v : Word) : (s.setReg r v).x = s.x.set r.val v := rfl
@[simp] theorem State.setReg_pc (s : State) (r : RegNum) (v : Word) : (s.setReg r v).pc = s.pc := rfl
@[simp] theorem State.setReg_cr (s : State) (r : RegNum) (v : Word) : (s.setReg r v).cr = s.cr := rfl
@[simp] theorem State.setReg_mode (s : State) (r : RegNum) (v : Word) : (s.setReg r v).mode = s.mode := rfl
@[simp] theorem State.setReg_tr (s : State) (r : RegNum) (v : Word) : (s.setReg r v).tr = s.tr := rfl
@[simp] theorem State.setReg_fpa (s : State) (r : RegNum) (v : Word) : (s.setReg r v).fpa = s.fpa := rfl
@[simp] theorem State.setReg_mem (s : State) (r : RegNum) (v : Word) : (s.setReg r v).mem = s.mem := rfl
@[simp] theorem State.setReg_events (s : State) (r : RegNum) (v : Word) : (s.setReg r v).events = s.events := rfl
@[simp] theorem State.setReg_draws (s : State) (r : RegNum) (v : Word) : (s.setReg r v).draws = s.draws := rfl
@[simp] theorem State.setReg_ioTurns (s : State) (r : RegNum) (v : Word) : (s.setReg r v).ioTurns = s.ioTurns := rfl
@[simp] theorem State.setReg_config (s : State) (r : RegNum) (v : Word) : (s.setReg r v).config = s.config := rfl

@[simp] theorem State.setCr_x (s : State) (v : BitVec 2) : (s.setCr v).x = s.x := rfl
@[simp] theorem State.setCr_pc (s : State) (v : BitVec 2) : (s.setCr v).pc = s.pc := rfl
@[simp] theorem State.setCr_cr (s : State) (v : BitVec 2) : (s.setCr v).cr = v := rfl
@[simp] theorem State.setCr_mode (s : State) (v : BitVec 2) : (s.setCr v).mode = s.mode := rfl
@[simp] theorem State.setCr_tr (s : State) (v : BitVec 2) : (s.setCr v).tr = s.tr := rfl
@[simp] theorem State.setCr_fpa (s : State) (v : BitVec 2) : (s.setCr v).fpa = s.fpa := rfl
@[simp] theorem State.setCr_mem (s : State) (v : BitVec 2) : (s.setCr v).mem = s.mem := rfl
@[simp] theorem State.setCr_events (s : State) (v : BitVec 2) : (s.setCr v).events = s.events := rfl
@[simp] theorem State.setCr_draws (s : State) (v : BitVec 2) : (s.setCr v).draws = s.draws := rfl
@[simp] theorem State.setCr_ioTurns (s : State) (v : BitVec 2) : (s.setCr v).ioTurns = s.ioTurns := rfl
@[simp] theorem State.setCr_config (s : State) (v : BitVec 2) : (s.setCr v).config = s.config := rfl

@[simp] theorem State.setTr_x (s : State) (v : Vector Word 16) : (s.setTr v).x = s.x := rfl
@[simp] theorem State.setTr_pc (s : State) (v : Vector Word 16) : (s.setTr v).pc = s.pc := rfl
@[simp] theorem State.setTr_cr (s : State) (v : Vector Word 16) : (s.setTr v).cr = s.cr := rfl
@[simp] theorem State.setTr_mode (s : State) (v : Vector Word 16) : (s.setTr v).mode = s.mode := rfl
@[simp] theorem State.setTr_tr (s : State) (v : Vector Word 16) : (s.setTr v).tr = v := rfl
@[simp] theorem State.setTr_fpa (s : State) (v : Vector Word 16) : (s.setTr v).fpa = s.fpa := rfl
@[simp] theorem State.setTr_mem (s : State) (v : Vector Word 16) : (s.setTr v).mem = s.mem := rfl
@[simp] theorem State.setTr_events (s : State) (v : Vector Word 16) : (s.setTr v).events = s.events := rfl
@[simp] theorem State.setTr_draws (s : State) (v : Vector Word 16) : (s.setTr v).draws = s.draws := rfl
@[simp] theorem State.setTr_ioTurns (s : State) (v : Vector Word 16) : (s.setTr v).ioTurns = s.ioTurns := rfl
@[simp] theorem State.setTr_config (s : State) (v : Vector Word 16) : (s.setTr v).config = s.config := rfl

@[simp] theorem State.setFpa_x (s : State) (v : Vector Word 3) : (s.setFpa v).x = s.x := rfl
@[simp] theorem State.setFpa_pc (s : State) (v : Vector Word 3) : (s.setFpa v).pc = s.pc := rfl
@[simp] theorem State.setFpa_cr (s : State) (v : Vector Word 3) : (s.setFpa v).cr = s.cr := rfl
@[simp] theorem State.setFpa_mode (s : State) (v : Vector Word 3) : (s.setFpa v).mode = s.mode := rfl
@[simp] theorem State.setFpa_tr (s : State) (v : Vector Word 3) : (s.setFpa v).tr = s.tr := rfl
@[simp] theorem State.setFpa_fpa (s : State) (v : Vector Word 3) : (s.setFpa v).fpa = v := rfl
@[simp] theorem State.setFpa_mem (s : State) (v : Vector Word 3) : (s.setFpa v).mem = s.mem := rfl
@[simp] theorem State.setFpa_events (s : State) (v : Vector Word 3) : (s.setFpa v).events = s.events := rfl
@[simp] theorem State.setFpa_draws (s : State) (v : Vector Word 3) : (s.setFpa v).draws = s.draws := rfl
@[simp] theorem State.setFpa_ioTurns (s : State) (v : Vector Word 3) : (s.setFpa v).ioTurns = s.ioTurns := rfl
@[simp] theorem State.setFpa_config (s : State) (v : Vector Word 3) : (s.setFpa v).config = s.config := rfl

@[simp] theorem State.setMem_x (s : State) (m : Memory) : (s.setMem m).x = s.x := rfl
@[simp] theorem State.setMem_pc (s : State) (m : Memory) : (s.setMem m).pc = s.pc := rfl
@[simp] theorem State.setMem_cr (s : State) (m : Memory) : (s.setMem m).cr = s.cr := rfl
@[simp] theorem State.setMem_mode (s : State) (m : Memory) : (s.setMem m).mode = s.mode := rfl
@[simp] theorem State.setMem_tr (s : State) (m : Memory) : (s.setMem m).tr = s.tr := rfl
@[simp] theorem State.setMem_fpa (s : State) (m : Memory) : (s.setMem m).fpa = s.fpa := rfl
@[simp] theorem State.setMem_mem (s : State) (m : Memory) : (s.setMem m).mem = m := rfl
@[simp] theorem State.setMem_events (s : State) (m : Memory) : (s.setMem m).events = s.events := rfl
@[simp] theorem State.setMem_draws (s : State) (m : Memory) : (s.setMem m).draws = s.draws := rfl
@[simp] theorem State.setMem_ioTurns (s : State) (m : Memory) : (s.setMem m).ioTurns = s.ioTurns := rfl
@[simp] theorem State.setMem_config (s : State) (m : Memory) : (s.setMem m).config = s.config := rfl

@[simp] theorem State.record_x (s : State) (ev : Event) : (s.record ev).x = s.x := rfl
@[simp] theorem State.record_pc (s : State) (ev : Event) : (s.record ev).pc = s.pc := rfl
@[simp] theorem State.record_cr (s : State) (ev : Event) : (s.record ev).cr = s.cr := rfl
@[simp] theorem State.record_mode (s : State) (ev : Event) : (s.record ev).mode = s.mode := rfl
@[simp] theorem State.record_tr (s : State) (ev : Event) : (s.record ev).tr = s.tr := rfl
@[simp] theorem State.record_fpa (s : State) (ev : Event) : (s.record ev).fpa = s.fpa := rfl
@[simp] theorem State.record_mem (s : State) (ev : Event) : (s.record ev).mem = s.mem := rfl
@[simp] theorem State.record_events (s : State) (ev : Event) : (s.record ev).events = s.events ++ [ev] := rfl
@[simp] theorem State.record_draws (s : State) (ev : Event) : (s.record ev).draws = s.draws := rfl
@[simp] theorem State.record_ioTurns (s : State) (ev : Event) : (s.record ev).ioTurns = s.ioTurns := rfl
@[simp] theorem State.record_config (s : State) (ev : Event) : (s.record ev).config = s.config := rfl

@[simp] theorem State.countDraw_x (s : State) : (s.countDraw).x = s.x := rfl
@[simp] theorem State.countDraw_pc (s : State) : (s.countDraw).pc = s.pc := rfl
@[simp] theorem State.countDraw_cr (s : State) : (s.countDraw).cr = s.cr := rfl
@[simp] theorem State.countDraw_mode (s : State) : (s.countDraw).mode = s.mode := rfl
@[simp] theorem State.countDraw_tr (s : State) : (s.countDraw).tr = s.tr := rfl
@[simp] theorem State.countDraw_fpa (s : State) : (s.countDraw).fpa = s.fpa := rfl
@[simp] theorem State.countDraw_mem (s : State) : (s.countDraw).mem = s.mem := rfl
@[simp] theorem State.countDraw_events (s : State) : (s.countDraw).events = s.events := rfl
@[simp] theorem State.countDraw_draws (s : State) : (s.countDraw).draws = s.draws + 1 := rfl
@[simp] theorem State.countDraw_ioTurns (s : State) : (s.countDraw).ioTurns = s.ioTurns := rfl
@[simp] theorem State.countDraw_config (s : State) : (s.countDraw).config = s.config := rfl

@[simp] theorem State.advance_x (s : State) (len : Word) : (s.advance len).x = s.x := rfl
@[simp] theorem State.advance_pc (s : State) (len : Word) : (s.advance len).pc = s.pc + len := rfl
@[simp] theorem State.advance_cr (s : State) (len : Word) : (s.advance len).cr = s.cr := rfl
@[simp] theorem State.advance_mode (s : State) (len : Word) : (s.advance len).mode = s.mode := rfl
@[simp] theorem State.advance_tr (s : State) (len : Word) : (s.advance len).tr = s.tr := rfl
@[simp] theorem State.advance_fpa (s : State) (len : Word) : (s.advance len).fpa = s.fpa := rfl
@[simp] theorem State.advance_mem (s : State) (len : Word) : (s.advance len).mem = s.mem := rfl
@[simp] theorem State.advance_events (s : State) (len : Word) : (s.advance len).events = s.events := rfl
@[simp] theorem State.advance_draws (s : State) (len : Word) : (s.advance len).draws = s.draws := rfl
@[simp] theorem State.advance_ioTurns (s : State) (len : Word) : (s.advance len).ioTurns = s.ioTurns := rfl
@[simp] theorem State.advance_config (s : State) (len : Word) : (s.advance len).config = s.config := rfl

/-- Writing a register and reading it back. -/
@[simp] theorem State.reg_setReg_same (s : State) (r : RegNum) (v : Word) : (s.setReg r v).reg r = v := by
  simp [State.reg, State.setReg]

/-- Writing a register leaves the others. -/
theorem State.reg_setReg_other (s : State) {r q : RegNum} (v : Word) (h : q ≠ r) : (s.setReg r v).reg q = s.reg q := by
  have : r.val ≠ q.val := fun e => h (Fin.ext e.symm)
  simp [State.reg, State.setReg, Vector.getElem_set_ne, this]

@[simp] theorem State.reg_setCr (s : State) (v : BitVec 2) (r : RegNum) : (s.setCr v).reg r = s.reg r := rfl
@[simp] theorem State.reg_setTr (s : State) (v : Vector Word 16) (r : RegNum) : (s.setTr v).reg r = s.reg r := rfl
@[simp] theorem State.reg_setFpa (s : State) (v : Vector Word 3) (r : RegNum) : (s.setFpa v).reg r = s.reg r := rfl
@[simp] theorem State.reg_setMem (s : State) (m : Memory) (r : RegNum) : (s.setMem m).reg r = s.reg r := rfl
@[simp] theorem State.reg_record (s : State) (ev : Event) (r : RegNum) : (s.record ev).reg r = s.reg r := rfl
@[simp] theorem State.reg_countDraw (s : State) (r : RegNum) : s.countDraw.reg r = s.reg r := rfl
@[simp] theorem State.reg_advance (s : State) (len : Word) (r : RegNum) : (s.advance len).reg r = s.reg r := rfl

end Sys2Proof.Machine
end

