-- ==== Sys2Proof/Laws/Ops.lean ====
section
/-! SUPPORT. For each shared operation, everything it can do. -/

namespace Sys2Proof.Machine

/-! ## Results -/

theorem bind_ok {α β : Type} {r : Result α} {f : α → Result β} {b : β} :
    (r >>= f) = .ok b ↔ ∃ a, r = .ok a ∧ f a = .ok b := by
  cases r <;> simp [bind, Except.bind]

@[simp] theorem ok_bind {α β : Type} (a : α) (f : α → Result β) : ((.ok a : Result α) >>= f) = f a := rfl

@[simp] theorem error_bind {α β : Type} (e : Stop) (f : α → Result β) : ((.error e : Result α) >>= f) = .error e := rfl

theorem require_ok {b : Bool} {stop : Stop} {u : Unit} : require b stop = .ok u ↔ b = true := by
  cases b <;> simp [require]

@[simp] theorem require_true (stop : Stop) : require true stop = .ok () := rfl

@[simp] theorem require_false (stop : Stop) : require false stop = .error stop := rfl

theorem require_pos {b : Bool} {stop : Stop} (h : b = true) : require b stop = .ok () := by
  rw [h, require_true]

theorem require_neg {b : Bool} {stop : Stop} (h : b = false) : require b stop = .error stop := by
  rw [h, require_false]

/-- A check before a computation: the computation answers only if the check holds. -/
theorem require_bind_ok {β : Type} {b : Bool} {stop : Stop} {f : Unit → Result β} {v : β} :
    (require b stop >>= f) = .ok v ↔ b = true ∧ f () = .ok v := by
  cases b <;> simp

@[simp] theorem finish_ok (s : State) : finish (.ok s) = .next s := rfl

@[simp] theorem finish_fault (f : Fault) : finish (.error (.fault f)) = .fault f := rfl

@[simp] theorem finish_refusal (r : Refusal) : finish (.error (.refusal r)) = .refused r := rfl

@[simp] theorem finish_raise (f : Fault) : finish (raise f) = .fault f := rfl

@[simp] theorem finish_refuse (r : Refusal) : finish (refuse r) = .refused r := rfl

theorem finish_next {r : Result State} {t : State} : finish r = .next t ↔ r = .ok t := by
  rcases r with (_ | _) | _ <;> simp [finish, Stop.outcome]

theorem afterInstr_next {o : Host.Outcome State Fault Refusal} {t : State} :
    afterInstr o = .next t ↔ ∃ u, o = .next u ∧ t = ioTurn u := by
  cases o <;> simp [afterInstr, eq_comm]

/-! ## What stays when only memory moves -/

theorem MemoryOnly.refl (s : State) : MemoryOnly s s := ⟨rfl, rfl, rfl, rfl, rfl, rfl, rfl, rfl⟩

theorem MemoryOnly.trans {s t u : State} (h : MemoryOnly s t) (k : MemoryOnly t u) : MemoryOnly s u :=
  ⟨k.x.trans h.x, k.pc.trans h.pc, k.cr.trans h.cr, k.mode.trans h.mode, k.tr.trans h.tr, k.fpa.trans h.fpa,
    k.draws.trans h.draws, k.config.trans h.config⟩

theorem MemoryOnly.reg {s t : State} (h : MemoryOnly s t) (r : RegNum) : t.reg r = s.reg r := by
  simp only [State.reg, h.x]

theorem record_memoryOnly (s : State) (ev : Event) : MemoryOnly s (s.record ev) := ⟨rfl, rfl, rfl, rfl, rfl, rfl, rfl, rfl⟩

theorem setMem_memoryOnly (s : State) (m : Memory) : MemoryOnly s (s.setMem m) := ⟨rfl, rfl, rfl, rfl, rfl, rfl, rfl, rfl⟩

theorem ioTurn_memoryOnly (s : State) : MemoryOnly s (ioTurn s) := by
  unfold ioTurn
  split_ifs
  · exact ⟨rfl, rfl, rfl, rfl, rfl, rfl, rfl, rfl⟩
  · exact MemoryOnly.refl s

/-! ## Addresses -/

/-- Everything `physical` can answer. -/
theorem physical_ok {s : State} {addr : Word} {kind : AccessKind} {p : Nat} :
    physical s addr kind = .ok p ↔
      isEven addr = true ∧ translate s.config s.tr s.mode addr kind = some p ∧ wordPresent s.config p = true := by
  unfold physical
  rw [require_bind_ok]
  refine and_congr_right fun _ => ?_
  cases translate s.config s.tr s.mode addr kind with
  | none => simp [raise]
  | some q =>
    show (require _ _ >>= fun _ => Except.ok q) = _ ↔ _
    rw [require_bind_ok]
    constructor
    · rintro ⟨h1, h2⟩
      cases h2
      exact ⟨rfl, h1⟩
    · rintro ⟨h1, h2⟩
      cases h1
      exact ⟨h2, rfl⟩

/-- The physical address depends on the configuration, the segment registers and the mode alone. -/
theorem physical_congr {s t : State} (hc : t.config = s.config) (ht : t.tr = s.tr) (hm : t.mode = s.mode)
    (addr : Word) (kind : AccessKind) : physical t addr kind = physical s addr kind := by
  unfold physical
  rw [hc, ht, hm]

theorem MemoryOnly.physical {s t : State} (h : MemoryOnly s t) (addr : Word) (kind : AccessKind) :
    physical t addr kind = Machine.physical s addr kind := physical_congr h.config h.tr h.mode addr kind

theorem readPhysical_ok {s : State} {p : Nat} {v : Word} : readPhysical s p = .ok v ↔ s.mem.readWord p = some v := by
  unfold readPhysical
  cases s.mem.readWord p <;> simp [raise]

/-- Everything `memRead` can answer. -/
theorem memRead_ok {s t : State} {addr v : Word} :
    memRead s addr = .ok (v, t) ↔
      ∃ p, physical s addr .read = .ok p ∧ s.mem.readWord p = some v ∧ t = s.record (.read p v) := by
  unfold memRead
  simp only [bind_ok, readPhysical_ok, Except.ok.injEq, Prod.mk.injEq]
  constructor
  · rintro ⟨p, h1, w, h2, rfl, rfl⟩
    exact ⟨p, h1, h2, rfl⟩
  · rintro ⟨p, h1, h2, rfl⟩
    exact ⟨p, h1, v, h2, rfl, rfl⟩

/-- Everything `memWrite` can answer. -/
theorem memWrite_ok {s t : State} {addr v : Word} :
    memWrite s addr v = .ok t ↔
      ∃ p, physical s addr .write = .ok p ∧ wordInText s.config p = false ∧
        t = (s.setMem (s.mem.writeWord p v)).record (.write p v) := by
  unfold memWrite
  simp only [bind_ok, require_ok, Except.ok.injEq, Bool.not_eq_true', exists_and_left, eq_comm (b := t)]
  constructor
  · rintro ⟨p, h1, h2, _, h3⟩
    exact ⟨p, h1, h2, h3⟩
  · rintro ⟨p, h1, h2, h3⟩
    exact ⟨p, h1, h2, (), h3⟩

/-- Everything `fetchWord` can answer. -/
theorem fetchWord_ok {s : State} {addr v : Word} :
    fetchWord s addr = .ok v ↔ ∃ p, physical s addr .fetch = .ok p ∧ s.mem.readWord p = some v := by
  unfold fetchWord
  simp only [bind_ok, readPhysical_ok]

/-- `accessible` is what a read or fetch needs. -/
theorem accessible_eq_some {s : State} {addr v : Word} {kind : AccessKind} {p : Nat} :
    accessible s addr kind = some (p, v) ↔ physical s addr kind = .ok p ∧ s.mem.readWord p = some v := by
  rw [physical_ok]
  unfold accessible
  by_cases h1 : isEven addr = true
  · rw [if_pos h1]
    cases translate s.config s.tr s.mode addr kind with
    | none => simp
    | some q =>
      by_cases h2 : wordPresent s.config q = true
      · simp only [h2, if_true, Option.map_eq_some_iff, Prod.mk.injEq, h1, true_and, Option.some.injEq]
        constructor
        · rintro ⟨w, h, rfl, rfl⟩
          exact ⟨⟨rfl, h2⟩, h⟩
        · rintro ⟨⟨rfl, _⟩, h⟩
          exact ⟨v, h, rfl, rfl⟩
      · simp only [h2]
        constructor
        · intro h; simp at h
        · rintro ⟨⟨_, h3, h4⟩, _⟩
          cases h3
          exact absurd h4 h2
  · simp [h1]

/-- `storable` is what a store needs. -/
theorem storable_eq_some {s : State} {addr : Word} {p : Nat} :
    storable s addr = some p ↔ physical s addr .write = .ok p ∧ wordInText s.config p = false := by
  rw [physical_ok]
  unfold storable
  by_cases h1 : isEven addr = true
  · rw [if_pos h1]
    cases translate s.config s.tr s.mode addr .write with
    | none => simp
    | some q =>
      simp only [Bool.and_eq_true, Bool.not_eq_true', h1, true_and, Option.some.injEq]
      split_ifs with h2
      · constructor
        · intro h; cases h; exact ⟨⟨rfl, h2.1⟩, h2.2⟩
        · rintro ⟨⟨rfl, _⟩, _⟩; rfl
      · constructor
        · intro h; cases h
        · rintro ⟨⟨rfl, h3⟩, h4⟩; exact absurd ⟨h3, h4⟩ h2
  · simp [h1]

/-! ## The I/O Processors -/

/-- Before a control word has been delivered the I/O Processors do nothing. -/
theorem ioTurn_quiet {s : State} (h : Quiet s) : ioTurn s = s := by
  unfold ioTurn
  rw [if_neg (by rw [h]; simp)]

@[simp] theorem ioTurn_events (s : State) : (ioTurn s).events = s.events := by
  unfold ioTurn
  split_ifs <;> rfl

/-- A character the I/O Processors may not write keeps its contents. -/
theorem ioApply_readByte {s : State} {a : Nat} (h : ioMayWrite s a = false) (l : List (Nat × Byte)) (m : Memory) :
    (ioApply s m l).readByte a = m.readByte a := by
  induction l generalizing m with
  | nil => rfl
  | cons c rest ih =>
    obtain ⟨p, b⟩ := c
    rw [ioApply, ih]
    split_ifs with hp
    · exact Memory.readByte_writeByte_other m b (by rintro rfl; simp [h] at hp)
    · rfl

/-- A turn leaves every character that the I/O Processors may not write. -/
theorem ioTurn_readByte {s : State} {a : Nat} (h : ioMayWrite s a = false) :
    (ioTurn s).mem.readByte a = s.mem.readByte a := by
  unfold ioTurn
  split_ifs
  · exact ioApply_readByte h _ _
  · rfl

theorem ioApply_wf {s : State} {m : Memory} (h : m.wf) (l : List (Nat × Byte)) : (ioApply s m l).wf := by
  induction l generalizing m with
  | nil => exact h
  | cons c rest ih =>
    obtain ⟨p, b⟩ := c
    rw [ioApply]
    apply ih
    split_ifs
    · exact Memory.writeByte_wf h _ _
    · exact h

/-- A turn keeps the canonical form of memory. -/
theorem ioTurn_wf {s : State} (h : Memory.wf s.mem) : Memory.wf (ioTurn s).mem := by
  unfold ioTurn
  split_ifs
  · exact ioApply_wf h _
  · exact h

theorem ioApply_present {s : State} {m : Memory} (h : ∀ c ∈ m, inSpans s.config.memPresent c.1 = true)
    (l : List (Nat × Byte)) : ∀ c ∈ ioApply s m l, inSpans s.config.memPresent c.1 = true := by
  induction l generalizing m with
  | nil => exact h
  | cons d rest ih =>
    obtain ⟨p, b⟩ := d
    rw [ioApply]
    apply ih
    split_ifs with hp
    · intro c hc
      rcases Memory.mem_writeByte hc with rfl | hc
      · simp only [ioMayWrite, Bool.and_eq_true] at hp
        exact hp.1.1
      · exact h c hc
    · exact h

/-- A turn writes only where there is memory. -/
theorem ioTurn_present {s : State} (h : ∀ c ∈ s.mem, inSpans s.config.memPresent c.1 = true) :
    ∀ c ∈ (ioTurn s).mem, inSpans s.config.memPresent c.1 = true := by
  unfold ioTurn
  split_ifs
  · exact ioApply_present h _
  · exact h

theorem ioApply_isSome {s : State} {m : Memory} {a : Nat} (h : (m.readByte a).isSome) (l : List (Nat × Byte)) :
    ((ioApply s m l).readByte a).isSome := by
  induction l generalizing m with
  | nil => exact h
  | cons c rest ih =>
    obtain ⟨p, b⟩ := c
    rw [ioApply]
    apply ih
    split_ifs
    · rw [Memory.readByte_writeByte]
      split_ifs <;> simp [h]
    · exact h

/-- A turn never takes a value away. -/
theorem ioTurn_isSome {s : State} {a : Nat} (h : (s.mem.readByte a).isSome) : ((ioTurn s).mem.readByte a).isSome := by
  unfold ioTurn
  split_ifs
  · exact ioApply_isSome h _
  · exact h

theorem betweenTransfers_memoryOnly (n : Nat) (s : State) : MemoryOnly s (betweenTransfers n s) := by
  cases n
  · exact MemoryOnly.refl s
  · exact ioTurn_memoryOnly s

theorem betweenTransfers_quiet (n : Nat) {s : State} (h : Quiet s) : betweenTransfers n s = s := by
  cases n
  · rfl
  · exact ioTurn_quiet h

/-- A memory event delivers no control word. -/
theorem record_quiet {s : State} {ev : Event} (h : ev.isExtWrite = false) (hs : Quiet s) : Quiet (s.record ev) := by
  simp only [Quiet, State.controlWordSent, State.record_events, List.any_append] at *
  simp [hs, h]

/-! ## Block transfers -/

theorem readBlock_succ_ok {n : Nat} {e : Word} {s u : State} {vs : Vector Word (n + 1)} :
    readBlock (n + 1) e s = .ok (vs, u) ↔
      ∃ ws t w, readBlock n e s = .ok (ws, t) ∧ memRead (betweenTransfers n t) (blockAddr e n) = .ok (w, u) ∧
        vs = ws.push w := by
  simp only [readBlock, bind_ok, Prod.exists, Except.ok.injEq, Prod.mk.injEq]
  constructor
  · rintro ⟨ws, t, h1, w, u', h2, rfl, rfl⟩
    exact ⟨ws, t, w, h1, h2, rfl⟩
  · rintro ⟨ws, t, w, h1, h2, rfl⟩
    exact ⟨ws, t, h1, w, u, h2, rfl, rfl⟩

theorem writeBlock_succ_ok {n : Nat} {ws : Vector Word (n + 1)} {e : Word} {s u : State} :
    writeBlock (n + 1) ws e s = .ok u ↔
      ∃ t, writeBlock n ws.pop e s = .ok t ∧ memWrite (betweenTransfers n t) (blockAddr e n) ws.back = .ok u := by
  simp only [writeBlock, bind_ok]

/-- One word transfer of a block keeps a property of states that turns and the transfer itself keep. -/
theorem readBlock_keeps {P : State → Prop} (hio : ∀ s, P s → P (ioTurn s))
    (hrec : ∀ s p v, P s → P (s.record (.read p v))) {n : Nat} {e : Word} {s t : State}
    {ws : Vector Word n} (h : readBlock n e s = .ok (ws, t)) (hs : P s) : P t := by
  induction n generalizing t with
  | zero => simp [readBlock] at h; rw [← h]; exact hs
  | succ n ih =>
    obtain ⟨vs, t', w, h1, h2, rfl⟩ := readBlock_succ_ok.1 h
    obtain ⟨p, _, _, rfl⟩ := memRead_ok.1 h2
    refine hrec _ _ _ ?_
    cases n
    · exact ih h1
    · exact hio _ (ih h1)

theorem readBlock_memoryOnly {n : Nat} {e : Word} {s t : State} {ws : Vector Word n}
    (h : readBlock n e s = .ok (ws, t)) : MemoryOnly s t :=
  readBlock_keeps (P := MemoryOnly s) (fun u hu => hu.trans (ioTurn_memoryOnly u))
    (fun u _ _ hu => hu.trans (record_memoryOnly u _)) h (MemoryOnly.refl s)

theorem memWrite_memoryOnly {s t : State} {addr v : Word} (h : memWrite s addr v = .ok t) : MemoryOnly s t := by
  obtain ⟨p, _, _, rfl⟩ := memWrite_ok.1 h
  exact (setMem_memoryOnly s _).trans (record_memoryOnly _ _)

theorem writeBlock_memoryOnly {n : Nat} {ws : Vector Word n} {e : Word} {s t : State}
    (h : writeBlock n ws e s = .ok t) : MemoryOnly s t := by
  induction n generalizing t with
  | zero => simp [writeBlock] at h; rw [← h]; exact MemoryOnly.refl s
  | succ n ih =>
    obtain ⟨t', h1, h2⟩ := writeBlock_succ_ok.1 h
    exact ((ih h1).trans (betweenTransfers_memoryOnly n t')).trans (memWrite_memoryOnly h2)

/-- Everything a block write does to memory, word by word: the turns between, and the writes at the physical addresses of
the block, each outside the program text and where there is memory. -/
theorem writeBlock_keeps {P : State → Prop} (hio : ∀ s, P s → P (ioTurn s)) {s : State}
    (hwr : ∀ u p v, MemoryOnly s u → P u → wordPresent s.config p = true → wordInText s.config p = false →
      P ((u.setMem (u.mem.writeWord p v)).record (.write p v)))
    {n : Nat} {ws : Vector Word n} {e : Word} {t : State} (h : writeBlock n ws e s = .ok t) (hs : P s) : P t := by
  induction n generalizing t with
  | zero => simp [writeBlock] at h; rw [← h]; exact hs
  | succ n ih =>
    obtain ⟨t', h1, h2⟩ := writeBlock_succ_ok.1 h
    have hm := (writeBlock_memoryOnly h1).trans (betweenTransfers_memoryOnly n t')
    obtain ⟨p, h3, h4, rfl⟩ := memWrite_ok.1 h2
    rw [hm.config] at h4
    rw [hm.physical, physical_ok] at h3
    refine hwr _ _ _ hm ?_ h3.2.2 h4
    cases n
    · exact ih h1
    · exact hio _ (ih h1)

theorem ofFn_push_readEvents {n : Nat} (ps : Vector Nat (n + 1)) (ws : Vector Word (n + 1)) :
    readEvents ps ws = readEvents ps.pop ws.pop ++ [.read ps.back ws.back] := by
  simp only [readEvents, List.ofFn_succ_last]
  congr 1
  all_goals simp

theorem ofFn_push_writeEvents {n : Nat} (ps : Vector Nat (n + 1)) (ws : Vector Word (n + 1)) :
    writeEvents ps ws = writeEvents ps.pop ws.pop ++ [.write ps.back ws.back] := by
  simp only [writeEvents, List.ofFn_succ_last]
  congr 1
  all_goals simp

theorem accessible_congr {s t : State} (h : MemoryOnly s t) (hm : t.mem = s.mem) (addr : Word) (kind : AccessKind) :
    accessible t addr kind = accessible s addr kind := by
  unfold accessible
  rw [h.config, h.tr, h.mode, hm]

theorem storable_congr {s t : State} (h : MemoryOnly s t) (addr : Word) : storable t addr = storable s addr := by
  unfold storable
  rw [h.config, h.tr, h.mode]

theorem BlockReads.pop {s : State} {e : Word} {n : Nat} {ps : Vector Nat (n + 1)} {ws : Vector Word (n + 1)}
    (h : BlockReads s e ps ws) : BlockReads s e ps.pop ws.pop := by
  intro i
  have := h ⟨i.val, by omega⟩
  simpa using this

theorem BlockReads.last {s : State} {e : Word} {n : Nat} {ps : Vector Nat (n + 1)} {ws : Vector Word (n + 1)}
    (h : BlockReads s e ps ws) : accessible s (blockAddr e n) .read = some (ps.back, ws.back) := by
  have := h ⟨n, by omega⟩
  simpa [blockAddr, Vector.back] using this

theorem BlockStores.pop {s : State} {e : Word} {n : Nat} {ps : Vector Nat (n + 1)} (h : BlockStores s e ps) :
    BlockStores s e ps.pop := by
  intro i
  have := h ⟨i.val, by omega⟩
  simpa using this

theorem BlockStores.last {s : State} {e : Word} {n : Nat} {ps : Vector Nat (n + 1)} (h : BlockStores s e ps) :
    storable s (blockAddr e n) = some ps.back := by
  have := h ⟨n, by omega⟩
  simpa [blockAddr, Vector.back] using this

/-- Appending memory events keeps the I/O Processors quiet. -/
theorem append_quiet {s : State} {l : List Event} (hl : ∀ ev ∈ l, ev.isExtWrite = false) (hs : Quiet s) :
    Quiet { s with events := s.events ++ l } := by
  simp only [Quiet, State.controlWordSent, List.any_append, Bool.or_eq_false_iff] at *
  exact ⟨hs, by simpa using hl⟩

theorem readEvents_quiet {n : Nat} (ps : Vector Nat n) (ws : Vector Word n) :
    ∀ ev ∈ readEvents ps ws, ev.isExtWrite = false := by
  intro ev h
  obtain ⟨i, rfl⟩ := List.mem_ofFn.1 h
  rfl

theorem writeEvents_quiet {n : Nat} (ps : Vector Nat n) (ws : Vector Word n) :
    ∀ ev ∈ writeEvents ps ws, ev.isExtWrite = false := by
  intro ev h
  obtain ⟨i, rfl⟩ := List.mem_ofFn.1 h
  rfl

/-- Reading a readable block while the I/O Processors are quiet gives its words, records the events, changes nothing else. -/
theorem readBlock_quiet {n : Nat} {e : Word} {s : State} {ps : Vector Nat n} {ws : Vector Word n} (hq : Quiet s)
    (h : BlockReads s e ps ws) : readBlock n e s = .ok (ws, { s with events := s.events ++ readEvents ps ws }) := by
  induction n with
  | zero =>
    have : ws = #v[] := by ext i hi; omega
    subst this
    simp [readBlock, readEvents]
  | succ n ih =>
    refine readBlock_succ_ok.2 ⟨ws.pop, _, ws.back, ih h.pop, ?_, by simp⟩
    rw [betweenTransfers_quiet n (append_quiet (readEvents_quiet _ _) hq)]
    have hl := h.last
    rw [← accessible_congr (s := s) (t := { s with events := s.events ++ readEvents ps.pop ws.pop })
      ⟨rfl, rfl, rfl, rfl, rfl, rfl, rfl, rfl⟩ rfl, accessible_eq_some] at hl
    refine memRead_ok.2 ⟨ps.back, hl.1, hl.2, ?_⟩
    simp [State.record, ofFn_push_readEvents, List.append_assoc]

/-- Writing a block while the I/O Processors are quiet stores its words and records the events. -/
theorem writeBlock_quiet {n : Nat} {e : Word} {s : State} {ps : Vector Nat n} (ws : Vector Word n) (hq : Quiet s)
    (h : BlockStores s e ps) :
    ∃ t, writeBlock n ws e s = .ok t ∧ StoredBlock s t 0#16 [] ps ws := by
  induction n with
  | zero =>
    refine ⟨s, rfl, ?_, fun i => i.elim0, fun a _ => rfl⟩
    simp [writeEvents]
  | succ n ih =>
    obtain ⟨t, h1, hst⟩ := ih ws.pop h.pop
    have hev : t.events = s.events ++ writeEvents ps.pop ws.pop := by
      have := congrArg State.events hst.frame
      simpa using this
    have hqt : Quiet t := by
      have := append_quiet (writeEvents_quiet ps.pop ws.pop) hq
      simp only [Quiet, State.controlWordSent] at this ⊢
      rwa [hev]
    have hm := writeBlock_memoryOnly h1
    have hl := h.last
    rw [← storable_congr hm, storable_eq_some] at hl
    refine ⟨(t.setMem (t.mem.writeWord ps.back ws.back)).record (.write ps.back ws.back),
      writeBlock_succ_ok.2 ⟨t, h1, ?_⟩, ?_, ?_, ?_⟩
    · rw [betweenTransfers_quiet n hqt]
      exact memWrite_ok.2 ⟨ps.back, hl.1, hl.2, rfl⟩
    · have hf := hst.frame
      rw [ofFn_push_writeEvents]
      simp only [State.record, State.setMem, hev, List.append_nil, List.append_assoc] at hf ⊢
      rw [hf]
    · intro i hi
      by_cases hn : i.val = n
      · have : ps[i.val] = ps.back := by simp [Vector.back, hn]
        have h' : ws[i.val] = ws.back := by simp [Vector.back, hn]
        rw [this, h']
        exact Memory.readWord_writeWord_same _ _ _
      · have hlt : i.val < n := by omega
        have ha := hi ⟨n, by omega⟩ (by simpa [Fin.lt_def] using hlt)
        have hb : ps.back = ps[n] := by simp [Vector.back]
        show (t.mem.writeWord ps.back ws.back).readWord _ = _
        rw [Memory.readWord_writeWord_apart _ _ (by rw [hb]; simp only [apart] at ha; omega)]
        have := hst.stored ⟨i.val, hlt⟩ (fun j hj => by
          have := hi ⟨j.val, by omega⟩ (by simpa [Fin.lt_def] using hj)
          simpa using this)
        simpa using this
    · intro a ha
      have hb : ps.back = ps[n] := by simp [Vector.back]
      have hn := ha ⟨n, by omega⟩
      simp only [outsideWord] at hn
      show (t.mem.writeWord ps.back ws.back).readByte a = _
      rw [Memory.readByte_writeWord, hb, if_neg hn.2, if_neg hn.1]
      refine hst.rest a fun i => ?_
      have := ha ⟨i.val, by omega⟩
      simpa using this

/-! ## The footprint of the I/O Processors -/

@[simp] theorem controlWordsOf_nil : controlWordsOf [] = [] := rfl

@[simp] theorem controlWordsOf_append (l m : List Event) : controlWordsOf (l ++ m) = controlWordsOf l ++ controlWordsOf m :=
  List.filterMap_append

/-- Memory events deliver no control word. -/
theorem controlWordsOf_readEvents {n : Nat} (ps : Vector Nat n) (ws : Vector Word n) :
    controlWordsOf (readEvents ps ws) = [] := by
  rw [controlWordsOf, List.filterMap_eq_nil_iff]
  intro ev h
  obtain ⟨i, rfl⟩ := List.mem_ofFn.1 h
  rfl

theorem controlWordsOf_writeEvents {n : Nat} (ps : Vector Nat n) (ws : Vector Word n) :
    controlWordsOf (writeEvents ps ws) = [] := by
  rw [controlWordsOf, List.filterMap_eq_nil_iff]
  intro ev h
  obtain ⟨i, rfl⟩ := List.mem_ofFn.1 h
  rfl

/-- Under the safe default every character lies in the footprint (R66). -/
theorem inFootprint_allOfMemory {c : Config} (h : c.footprint = .allOfMemory) (events : List Event) (p : Nat) :
    inFootprint c events p = true := by
  rw [inFootprint, h]

/-- Under a table the footprint depends on the control words alone (R6). -/
theorem inFootprint_listed {c : Config} {table : List FootprintRow} (h : c.footprint = .listed table) (events : List Event)
    (p : Nat) : inFootprint c events p = listedFootprint table (controlWordsOf events) p := by
  rw [inFootprint, h]

/-! ## The pointer of types T6 and T7 -/

/-- Everything `eaIndirect` can answer. -/
theorem eaIndirect_ok {s t : State} {r2 : RegNum} {m e : Word} :
    eaIndirect s r2 m = .ok (e, t) ↔
      ∃ p, physical s (eaDirect s r2 m) .read = .ok p ∧ s.mem.readWord p = some e ∧
        t = ioTurn (s.record (.read p e)) := by
  simp only [eaIndirect, bind_ok, Prod.exists, Except.ok.injEq, Prod.mk.injEq, memRead_ok]
  constructor
  · rintro ⟨e', u, ⟨p, h1, h2, rfl⟩, rfl, rfl⟩
    exact ⟨p, h1, h2, rfl⟩
  · rintro ⟨p, h1, h2, rfl⟩
    exact ⟨e, _, ⟨p, h1, h2, rfl⟩, rfl, rfl⟩

theorem eaIndirect_memoryOnly {s t : State} {r2 : RegNum} {m e : Word} (h : eaIndirect s r2 m = .ok (e, t)) :
    MemoryOnly s t := by
  obtain ⟨p, _, _, rfl⟩ := eaIndirect_ok.1 h
  exact (record_memoryOnly s _).trans (ioTurn_memoryOnly _)

end Sys2Proof.Machine
end

