-- ==== Sys2Proof/Laws/Exec.lean ====
section
/-! SUPPORT. For each instruction, everything it can do when it answers a next state. -/

namespace Sys2Proof.Machine

theorem requireSystem_ok {s : State} {u : Unit} : requireSystem s = .ok u ↔ s.mode = .system := by
  rw [requireSystem, require_ok, beq_iff_eq]

theorem requireExternal_ok {s : State} {a : ExtAddr} {u : Unit} :
    requireExternal s a = .ok u ↔ extAnswers s.config a = true := require_ok

theorem requireEvenBlock_ok {e : Word} {u : Unit} : requireEvenBlock e = .ok u ↔ isEven e = true := require_ok

theorem requireT3Register_ok {r2 : RegNum} {u : Unit} : requireT3Register r2 = .ok u ↔ r2 ≠ 0 := by
  rw [requireT3Register, require_ok, bne_iff_ne]

/-- The checks common to TLR, TL, TSR and TS (R130). -/
theorem segmentChecks_ok {s : State} {u : Unit} :
    segmentChecks s = .ok u ↔ mmuInstalled s.config = true ∧ s.mode = .system := by
  rw [segmentChecks, require_bind_ok, requireSystem_ok]

/-- The checks common to FLDR, FLD, FSTR and FST (R150). -/
theorem floatChecks_ok {s : State} {u : Unit} :
    floatChecks s = .ok u ↔ ffpInstalled s.config = true ∧ (s.config.fpSystemOnly = false ∨ s.mode = .system) := by
  rw [floatChecks, require_bind_ok, require_ok, Bool.or_eq_true, Bool.not_eq_true', beq_iff_eq]

theorem loadSegmentTable_ok {e len : Word} {s t : State} :
    loadSegmentTable e len s = .ok t ↔
      isEven e = true ∧ ∃ ws u, readBlock 16 e s = .ok (ws, u) ∧ t = (u.setTr ws).advance len := by
  simp only [loadSegmentTable, requireEvenBlock, bind_ok, require_ok, exists_const, Prod.exists, Except.ok.injEq, eq_comm (b := t)]

theorem storeSegmentTable_ok {e len : Word} {s t : State} :
    storeSegmentTable e len s = .ok t ↔
      isEven e = true ∧ ∃ u, writeBlock 16 s.tr e s = .ok u ∧ t = u.advance len := by
  simp only [storeSegmentTable, requireEvenBlock, bind_ok, require_ok, exists_const, Except.ok.injEq, eq_comm (b := t)]

theorem loadAccumulators_ok {e len : Word} {s t : State} :
    loadAccumulators e len s = .ok t ↔
      isEven e = true ∧ ∃ ws u, readBlock 3 e s = .ok (ws, u) ∧ t = (acceptOperand ws u).advance len := by
  simp only [loadAccumulators, requireEvenBlock, bind_ok, require_ok, exists_const, Prod.exists, Except.ok.injEq, eq_comm (b := t)]

theorem storeAccumulators_ok {e len : Word} {s t : State} :
    storeAccumulators e len s = .ok t ↔
      isEven e = true ∧ ∃ u, writeBlock 3 s.fpa e s = .ok u ∧ t = u.advance len := by
  simp only [storeAccumulators, requireEvenBlock, bind_ok, require_ok, exists_const, Except.ok.injEq, eq_comm (b := t)]

/-- Everything WER can do (R111). -/
theorem execWer_next {r3 : RegNum} {a : ExtAddr} {s t : State} :
    execWer r3 a s = .next t ↔
      r3 ≠ 0 ∧ werBit8Clear a = true ∧ iopNumberOf a ≤ iopMax s.config.model ∧ s.mode = .system ∧
        extAnswers s.config a = true ∧ t = (extWrite s a (s.reg r3)).advance 2#16 := by
  simp only [execWer, finish_next, requireSystem, requireExternal, require_bind_ok, bne_iff_ne, decide_eq_true_eq,
    beq_iff_eq, Except.ok.injEq, eq_comm (b := t), ne_eq]

/-- Everything RER can do (R112). -/
theorem execRer_next {r3 : RegNum} {a : ExtAddr} {s t : State} :
    execRer r3 a s = .next t ↔
      r3 ≠ 0 ∧ s.mode = .system ∧ extAnswers s.config a = true ∧
        t = (((((s.record (.extRead a (Config.extReadValue a s.draws))).countDraw).setReg r3
          (Config.extReadValue a s.draws)).setCr (crOfExternal (Config.extReadValue a s.draws))).advance 2#16) := by
  simp only [execRer, finish_next, requireSystem, requireExternal, require_bind_ok, bne_iff_ne,
    beq_iff_eq, Except.ok.injEq, eq_comm (b := t), ne_eq, extRead]

/-- Everything TLR can do (R131). -/
theorem execTlr_next {r2 : RegNum} {s t : State} :
    execTlr r2 s = .next t ↔
      r2 ≠ 0 ∧ (mmuInstalled s.config = true ∧ s.mode = .system) ∧ isEven (eaRegister s r2) = true ∧ ∃ ws u, readBlock 16 (eaRegister s r2) s = .ok (ws, u) ∧
        t = (u.setTr ws).advance 2#16 := by
  simp only [execTlr, finish_next, requireT3Register, require_bind_ok, bne_iff_ne, ne_eq]
  rw [bind_ok]
  simp only [segmentChecks_ok, exists_const, loadSegmentTable_ok]

/-- Everything TL can do (R132). -/
theorem execTl_next {r2 : RegNum} {m : Word} {s t : State} :
    execTl r2 m s = .next t ↔
      (mmuInstalled s.config = true ∧ s.mode = .system) ∧ isEven (eaDirect s r2 m) = true ∧ ∃ ws u, readBlock 16 (eaDirect s r2 m) s = .ok (ws, u) ∧
        t = (u.setTr ws).advance 4#16 := by
  simp only [execTl, finish_next]
  rw [bind_ok]
  simp only [segmentChecks_ok, exists_const, loadSegmentTable_ok]

/-- Everything TL* can do (R132): the pointer, then the block. -/
theorem execTlInd_next {r2 : RegNum} {m : Word} {s t : State} :
    execTlInd r2 m s = .next t ↔
      (mmuInstalled s.config = true ∧ s.mode = .system) ∧ ∃ e v, eaIndirect s r2 m = .ok (e, v) ∧ isEven e = true ∧ ∃ ws u, readBlock 16 e v = .ok (ws, u) ∧
        t = (u.setTr ws).advance 4#16 := by
  simp only [execTlInd, finish_next]
  rw [bind_ok]
  simp only [segmentChecks_ok, exists_const, bind_ok, Prod.exists, loadSegmentTable_ok]

/-- Everything TSR can do (R133). -/
theorem execTsr_next {r2 : RegNum} {s t : State} :
    execTsr r2 s = .next t ↔
      r2 ≠ 0 ∧ (mmuInstalled s.config = true ∧ s.mode = .system) ∧ isEven (eaRegister s r2) = true ∧ ∃ u, writeBlock 16 s.tr (eaRegister s r2) s = .ok u ∧
        t = u.advance 2#16 := by
  simp only [execTsr, finish_next, requireT3Register, require_bind_ok, bne_iff_ne, ne_eq]
  rw [bind_ok]
  simp only [segmentChecks_ok, exists_const, storeSegmentTable_ok]

/-- Everything TS can do (R134). -/
theorem execTs_next {r2 : RegNum} {m : Word} {s t : State} :
    execTs r2 m s = .next t ↔
      (mmuInstalled s.config = true ∧ s.mode = .system) ∧ isEven (eaDirect s r2 m) = true ∧ ∃ u, writeBlock 16 s.tr (eaDirect s r2 m) s = .ok u ∧
        t = u.advance 4#16 := by
  simp only [execTs, finish_next]
  rw [bind_ok]
  simp only [segmentChecks_ok, exists_const, storeSegmentTable_ok]

/-- Everything TS* can do (R134): the pointer, then the block. -/
theorem execTsInd_next {r2 : RegNum} {m : Word} {s t : State} :
    execTsInd r2 m s = .next t ↔
      (mmuInstalled s.config = true ∧ s.mode = .system) ∧ ∃ e v, eaIndirect s r2 m = .ok (e, v) ∧ isEven e = true ∧ ∃ u, writeBlock 16 v.tr e v = .ok u ∧
        t = u.advance 4#16 := by
  simp only [execTsInd, finish_next]
  rw [bind_ok]
  simp only [segmentChecks_ok, exists_const, bind_ok, Prod.exists, storeSegmentTable_ok]

/-- Everything FLDR can do (R152). -/
theorem execFldr_next {r2 : RegNum} {s t : State} :
    execFldr r2 s = .next t ↔
      r2 ≠ 0 ∧ (ffpInstalled s.config = true ∧ (s.config.fpSystemOnly = false ∨ s.mode = .system)) ∧ isEven (eaRegister s r2) = true ∧ ∃ ws u, readBlock 3 (eaRegister s r2) s = .ok (ws, u) ∧
        t = (acceptOperand ws u).advance 2#16 := by
  simp only [execFldr, finish_next, requireT3Register, require_bind_ok, bne_iff_ne, ne_eq]
  rw [bind_ok]
  simp only [floatChecks_ok, exists_const, loadAccumulators_ok]

/-- Everything FLD can do (R153). -/
theorem execFld_next {r2 : RegNum} {m : Word} {s t : State} :
    execFld r2 m s = .next t ↔
      (ffpInstalled s.config = true ∧ (s.config.fpSystemOnly = false ∨ s.mode = .system)) ∧ isEven (eaDirect s r2 m) = true ∧ ∃ ws u, readBlock 3 (eaDirect s r2 m) s = .ok (ws, u) ∧
        t = (acceptOperand ws u).advance 4#16 := by
  simp only [execFld, finish_next]
  rw [bind_ok]
  simp only [floatChecks_ok, exists_const, loadAccumulators_ok]

/-- Everything FLD* can do (R153): the pointer, then the block. -/
theorem execFldInd_next {r2 : RegNum} {m : Word} {s t : State} :
    execFldInd r2 m s = .next t ↔
      (ffpInstalled s.config = true ∧ (s.config.fpSystemOnly = false ∨ s.mode = .system)) ∧ ∃ e v, eaIndirect s r2 m = .ok (e, v) ∧ isEven e = true ∧ ∃ ws u, readBlock 3 e v = .ok (ws, u) ∧
        t = (acceptOperand ws u).advance 4#16 := by
  simp only [execFldInd, finish_next]
  rw [bind_ok]
  simp only [floatChecks_ok, exists_const, bind_ok, Prod.exists, loadAccumulators_ok]

/-- Everything FSTR can do (R154). -/
theorem execFstr_next {r2 : RegNum} {s t : State} :
    execFstr r2 s = .next t ↔
      r2 ≠ 0 ∧ (ffpInstalled s.config = true ∧ (s.config.fpSystemOnly = false ∨ s.mode = .system)) ∧ isEven (eaRegister s r2) = true ∧ ∃ u, writeBlock 3 s.fpa (eaRegister s r2) s = .ok u ∧
        t = u.advance 2#16 := by
  simp only [execFstr, finish_next, requireT3Register, require_bind_ok, bne_iff_ne, ne_eq]
  rw [bind_ok]
  simp only [floatChecks_ok, exists_const, storeAccumulators_ok]

/-- Everything FST can do (R155). -/
theorem execFst_next {r2 : RegNum} {m : Word} {s t : State} :
    execFst r2 m s = .next t ↔
      (ffpInstalled s.config = true ∧ (s.config.fpSystemOnly = false ∨ s.mode = .system)) ∧ isEven (eaDirect s r2 m) = true ∧ ∃ u, writeBlock 3 s.fpa (eaDirect s r2 m) s = .ok u ∧
        t = u.advance 4#16 := by
  simp only [execFst, finish_next]
  rw [bind_ok]
  simp only [floatChecks_ok, exists_const, storeAccumulators_ok]

/-- Everything FST* can do (R155): the pointer, then the block. -/
theorem execFstInd_next {r2 : RegNum} {m : Word} {s t : State} :
    execFstInd r2 m s = .next t ↔
      (ffpInstalled s.config = true ∧ (s.config.fpSystemOnly = false ∨ s.mode = .system)) ∧ ∃ e v, eaIndirect s r2 m = .ok (e, v) ∧ isEven e = true ∧ ∃ u, writeBlock 3 v.fpa e v = .ok u ∧
        t = u.advance 4#16 := by
  simp only [execFstInd, finish_next]
  rw [bind_ok]
  simp only [floatChecks_ok, exists_const, bind_ok, Prod.exists, storeAccumulators_ok]

end Sys2Proof.Machine
end

