-- ==== Sys2Proof/Laws/PerInstr.lean ====
section
/-! SUPPORT. A family of statements with one lemma per instruction: the encoder gives as many characters as the instruction is
long (spec/30_encoding.md R80), under every choice of the parameters. -/

namespace Sys2Proof.Laws.EncodedLength

/-- The bytes of the instruction are as many as its length. -/
def Statement (i : Instr) : Prop := ∀ e : Encoding, (encodeBytes e i).length = i.length

theorem wer (r3 : RegNum) (a : ExtAddr) : Statement (.wer r3 a) := fun _ => rfl
theorem rer (r3 : RegNum) (a : ExtAddr) : Statement (.rer r3 a) := fun _ => rfl
theorem tlr (r2 : RegNum) : Statement (.tlr r2) := fun _ => rfl
theorem tl (r2 : RegNum) (m : Word) : Statement (.tl r2 m) := fun _ => rfl
theorem tlInd (r2 : RegNum) (m : Word) : Statement (.tlInd r2 m) := fun _ => rfl
theorem tsr (r2 : RegNum) : Statement (.tsr r2) := fun _ => rfl
theorem ts (r2 : RegNum) (m : Word) : Statement (.ts r2 m) := fun _ => rfl
theorem tsInd (r2 : RegNum) (m : Word) : Statement (.tsInd r2 m) := fun _ => rfl
theorem fldr (r2 : RegNum) : Statement (.fldr r2) := fun _ => rfl
theorem fld (r2 : RegNum) (m : Word) : Statement (.fld r2 m) := fun _ => rfl
theorem fldInd (r2 : RegNum) (m : Word) : Statement (.fldInd r2 m) := fun _ => rfl
theorem fstr (r2 : RegNum) : Statement (.fstr r2) := fun _ => rfl
theorem fst (r2 : RegNum) (m : Word) : Statement (.fst r2 m) := fun _ => rfl
theorem fstInd (r2 : RegNum) (m : Word) : Statement (.fstInd r2 m) := fun _ => rfl

end Sys2Proof.Laws.EncodedLength
end

