-- ==== Sys2Proof/Laws/Step.lean ====
section
/-! SUPPORT. What the fetch and the step can do, and what accepting a floating-point operand leaves alone. -/

namespace Sys2Proof.Machine

/-- Everything `fetchBytes` can answer: one word, or two where the first says so and the pc is not 0xFFFE (R99). -/
theorem fetchBytes_ok {s : State} {bytes : List Byte} :
    fetchBytes s = .ok bytes ↔
      ∃ w, fetchWord s s.pc = .ok w ∧
        ((needsSecondWord s.config.encoding w = false ∧ bytes = wordChars w) ∨
          (needsSecondWord s.config.encoding w = true ∧ s.pc ≠ 0xFFFE#16 ∧
            ∃ m, fetchWord s (s.pc + 2#16) = .ok m ∧ bytes = wordChars w ++ wordChars m)) := by
  rw [fetchBytes, bind_ok]
  refine exists_congr fun w => and_congr_right fun _ => ?_
  cases needsSecondWord s.config.encoding w
  · simp [eq_comm]
  · rw [if_pos rfl, require_bind_ok, bind_ok]
    simp [eq_comm (b := bytes)]

/-- Everything `fetchInstr` can answer. -/
theorem fetchInstr_ok {s : State} {i : Instr} :
    fetchInstr s = .ok i ↔ ∃ bytes rest, fetchBytes s = .ok bytes ∧ decode s.config.encoding bytes = .ok (i, rest) := by
  rw [fetchInstr, bind_ok]
  constructor
  · rintro ⟨bytes, h1, h2⟩
    cases hd : decode s.config.encoding bytes with
    | error r => rw [hd] at h2; cases h2
    | ok x =>
      rw [hd] at h2
      obtain ⟨j, rest⟩ := x
      cases h2
      exact ⟨bytes, rest, h1, hd⟩
  · rintro ⟨bytes, rest, h1, h2⟩
    exact ⟨bytes, h1, by rw [h2]⟩

/-- A step that goes on fetches an instruction, executes it and takes a turn of the I/O Processors. -/
theorem step_next {s t : State} :
    step s = .next t ↔ ∃ i u, fetchInstr s = .ok i ∧ exec i s = .next u ∧ t = ioTurn u := by
  unfold step
  cases fetchInstr s with
  | error stop => cases stop <;> simp [Stop.outcome]
  | ok i => simp [afterInstr_next]

@[simp] theorem acceptOperand_x (ws : Vector Word 3) (s : State) : (acceptOperand ws s).x = s.x := by
  unfold acceptOperand; cases fpClass s.config ws <;> rfl
@[simp] theorem acceptOperand_pc (ws : Vector Word 3) (s : State) : (acceptOperand ws s).pc = s.pc := by
  unfold acceptOperand; cases fpClass s.config ws <;> rfl
@[simp] theorem acceptOperand_cr (ws : Vector Word 3) (s : State) :
    (acceptOperand ws s).cr = crOfClass (fpClass s.config ws) := rfl
@[simp] theorem acceptOperand_mode (ws : Vector Word 3) (s : State) : (acceptOperand ws s).mode = s.mode := by
  unfold acceptOperand; cases fpClass s.config ws <;> rfl
@[simp] theorem acceptOperand_tr (ws : Vector Word 3) (s : State) : (acceptOperand ws s).tr = s.tr := by
  unfold acceptOperand; cases fpClass s.config ws <;> rfl
@[simp] theorem acceptOperand_mem (ws : Vector Word 3) (s : State) : (acceptOperand ws s).mem = s.mem := by
  unfold acceptOperand; cases fpClass s.config ws <;> rfl
@[simp] theorem acceptOperand_events (ws : Vector Word 3) (s : State) : (acceptOperand ws s).events = s.events := by
  unfold acceptOperand; cases fpClass s.config ws <;> rfl
@[simp] theorem acceptOperand_ioTurns (ws : Vector Word 3) (s : State) : (acceptOperand ws s).ioTurns = s.ioTurns := by
  unfold acceptOperand; cases fpClass s.config ws <;> rfl
@[simp] theorem acceptOperand_config (ws : Vector Word 3) (s : State) : (acceptOperand ws s).config = s.config := by
  unfold acceptOperand; cases fpClass s.config ws <;> rfl

/-- An operand that is not unnormalized is loaded as it is (R152). -/
theorem acceptOperand_fpa {ws : Vector Word 3} {s : State} (h : fpClass s.config ws ≠ .unnormalized) :
    (acceptOperand ws s).fpa = ws := by
  unfold acceptOperand
  cases hc : fpClass s.config ws
  · rfl
  · rfl
  · rfl
  · exact absurd hc h

end Sys2Proof.Machine
end

