-- ==== Sys2Proof/Tests/Slice0.lean ====
section
/-! SUPPORT. Tests on fixed values, from the vectors of spec/95_test_vectors.md (derived there from the rules, not from a run) and
from the encodings of spec/30_encoding.md, and for every statement with hypotheses a witness that meets them. -/

namespace Sys2Proof.Tests

open Sys2Proof Sys2Proof.Machine

/-! ## Helpers -/

/-- The start of the vectors: `pc = 0x0100`, system mode, a P857M with both options (95_test_vectors.md section 2). -/
def base : State := { State.reset with pc := 0x0100#16 }

/-- Store words at consecutive addresses. -/
def poke (s : State) (a : Nat) : List Word → State
  | [] => s
  | w :: ws => poke (s.setMem (s.mem.writeWord a w)) (a + 2) ws

/-- `n` words counting up from `w`. -/
def rampList (w : Nat) (n : Nat) : List Word := (List.range n).map fun k => BitVec.ofNat 16 (w + k)

/-- Sixteen words counting up from `w`. -/
def ramp (w : Nat) : Vector Word 16 := Vector.ofFn fun i => BitVec.ofNat 16 (w + i.val)

/-- The addresses of `n` consecutive words. -/
def wordsFrom (a n : Nat) : Vector Nat n := Vector.ofFn fun i => a + 2 * i.val

/-- The words at consecutive addresses. -/
def peek (s : State) (a n : Nat) : List (Option Word) := (List.range n).map fun k => s.mem.readWord (a + 2 * k)

/-- The outcome is a next state with a property. -/
def gives (o : Host.Outcome State Fault Refusal) (p : State → Bool) : Bool :=
  match o with
  | .next t => p t
  | .fault _ => false
  | .refused _ => false

/-- The fault of an outcome. -/
def faultOf : Host.Outcome State Fault Refusal → Option Fault
  | .next _ => none
  | .fault f => some f
  | .refused _ => none

/-- The refusal of an outcome. -/
def refusalOf : Host.Outcome State Fault Refusal → Option Refusal
  | .next _ => none
  | .fault _ => none
  | .refused r => some r

theorem exists_of_gives {o : Host.Outcome State Fault Refusal} {p : State → Bool} (h : gives o p = true) :
    ∃ t, o = .next t ∧ p t = true := by
  cases o with
  | next t => exact ⟨t, rfl, h⟩
  | fault f => cases h
  | refused r => cases h

theorem next_of_gives {o : Host.Outcome State Fault Refusal} (h : gives o (fun _ => true) = true) : ∃ t, o = .next t := by
  obtain ⟨t, ht, _⟩ := exists_of_gives h
  exact ⟨t, ht⟩

theorem fault_of {o : Host.Outcome State Fault Refusal} {f : Fault} (h : faultOf o = some f) : o = .fault f := by
  cases o <;> simp_all [faultOf]

theorem refused_of {o : Host.Outcome State Fault Refusal} {r : Refusal} (h : refusalOf o = some r) : o = .refused r := by
  cases o <;> simp_all [refusalOf]

/-! ## WellFormed: one ill-formed term for each check (R98 (a), (b), (d)) -/

theorem test_wellFormed_refuses_wer_r3_zero : (Instr.wer 0 0x0A#8).wellFormed = false := by decide
theorem test_wellFormed_refuses_wer_bit8 : (Instr.wer 1 0x80#8).wellFormed = false := by decide
theorem test_wellFormed_refuses_rer_r3_zero : (Instr.rer 0 0x0A#8).wellFormed = false := by decide
theorem test_wellFormed_refuses_t3_r2_zero :
    [Instr.tlr 0, .tsr 0, .fldr 0, .fstr 0].all (fun i => !i.wellFormed) = true := by decide
theorem test_wellFormed_accepts :
    [Instr.wer 1 0x7F#8, .rer 15 0xFF#8, .tlr 1, .tsr 15, .fldr 6, .fstr 7, .ts 0 0x0010#16].all Instr.wellFormed = true := by
  decide

/-! ## Decoding (vectors 2.5): TSR and TS are complete in the spec -/

theorem test_decode_TSR : decodeTableWord 16 0xB823 = some (.tsr 1) := by decide
theorem test_decode_TSR_A15 : decodeTableWord 16 0xB83F = some (.tsr 15) := by decide
theorem test_decode_TS : decodeTableWord 32 0x0010B847 = some (.ts 3 0x0010#16) := by decide
theorem test_decode_TS_T4 : decodeTableWord 16 0xB841 = some (.ts 0 0x0000#16) := by decide
theorem test_decode_TSInd : decodeTableWord 32 0x0600B86B = some (.tsInd 5 0x0600#16) := by decide
theorem test_decode_TSInd_T6 : decodeTableWord 32 0x0600B861 = some (.tsInd 0 0x0600#16) := by decide
theorem test_decode_TSR_r2_zero : decodeTableWord 16 0xB821 = some (.tsr 0) := by decide
theorem test_decode_MdZero : decode launchEncoding [0xB8#8, 0x01#8] = .error .mdZero := by decide
theorem test_decode_NotInScope : decode launchEncoding [0xB8#8, 0xC1#8] = .error .notInScope := by decide

/-- The other rows, under the launch's parameters (log 4): each word is written out field by field. -/
theorem test_decode_TLR : decode launchEncoding (wordChars 0b1011100000101000#16) = .ok (.tlr 4, []) := by decide
theorem test_decode_TL : decode launchEncoding (wordChars 0b1011100001000000#16 ++ wordChars 0x3000#16) = .ok (.tl 0 0x3000#16, []) := by
  decide
theorem test_decode_TLInd :
    decode launchEncoding (wordChars 0b1011100001100100#16 ++ wordChars 0x3000#16) = .ok (.tlInd 2 0x3000#16, []) := by decide
theorem test_decode_FLDR : decode launchEncoding (wordChars 0xC12C#16) = .ok (.fldr 6, []) := by decide
theorem test_decode_FLD : decode launchEncoding (wordChars 0xC146#16 ++ wordChars 0x0200#16) = .ok (.fld 3 0x0200#16, []) := by
  decide
theorem test_decode_FLDInd :
    decode launchEncoding (wordChars 0xC160#16 ++ wordChars 0x0200#16) = .ok (.fldInd 0 0x0200#16, []) := by decide
theorem test_decode_FSTR : decode launchEncoding (wordChars 0b1100000100101111#16) = .ok (.fstr 7, []) := by decide
theorem test_decode_FST :
    decode launchEncoding (wordChars 0b1100000101000001#16 ++ wordChars 0x0200#16) = .ok (.fst 0 0x0200#16, []) := by decide
theorem test_decode_FSTInd :
    decode launchEncoding (wordChars 0b1100000101100101#16 ++ wordChars 0x0810#16) = .ok (.fstInd 2 0x0810#16, []) := by decide
theorem test_decode_WER : decode launchEncoding [0b01110001#8, 0x0A#8] = .ok (.wer 1 0x0A#8, []) := by decide
theorem test_decode_RER : decode launchEncoding [0b01111011#8, 0x0A#8] = .ok (.rer 3 0x0A#8, []) := by decide
theorem test_decode_WER_bit8 : decode launchEncoding [0b01110001#8, 0x80#8] = .error .werBit8 := by decide

/-- `FLDR A6` under each of the ten candidates of R93 (vectors 2.5, in the order of `fpCandidates`). -/
theorem test_encode_FLDR_candidates :
    fpCandidates.map (fun p => encode { launchEncoding with fpB0to8 := p } (.fldr 6)) =
      [[0xE12C#16], [0xD12C#16], [0xC92C#16], [0xC52C#16], [0xC32C#16], [0xC2AC#16], [0x612C#16], [0xA12C#16], [0xC12C#16],
        [0xC22C#16]] := by decide

theorem test_launchEncoding_valid : launchEncoding.valid = true := by decide

/-- A choice of the parameters in which the rows of RER and TS share words is no admissible one (R99). -/
theorem test_overlapping_rows_are_invalid : ({ launchEncoding with rerHi := 0xB8#8 } : Encoding).valid = false := by decide

/-! ## Control words (vectors 2.1, 2.4), the narrow footprint (P1), CR of RER (2.3) -/

theorem test_address_fields :
    [0x00#8, 0x0A#8, 0x0B#8, 0x1E#8, 0x35#8, 0x7F#8].map (fun a => (iopNumberOf a, deviceOf a, isSecondWord a)) =
      [(0, 0, false), (0, 5, false), (0, 5, true), (1, 7, false), (3, 2, true), (7, 7, true)] := by decide
theorem test_cw1_fields :
    [0x0084#16, 0x8100#16, 0xC010#16, 0x7FFF#16, 0x2000#16].map
        (fun c => (cw1WordMode c, cw1FromMemory c, cw1Extension c, cw1Length c)) =
      [(false, false, 0#2, 132), (true, false, 0#2, 256), (true, true, 0#2, 16), (false, true, 3#2, 4095),
        (false, false, 2#2, 0)] := by decide
theorem test_cw2_fields :
    [0x1000#16, 0x1001#16, 0xFFFE#16].map (fun c => (cw2WordAddress c, cw2RightHand c)) =
      [(0x0800#15, false), (0x0800#15, true), (0x7FFF#15, false)] := by decide
theorem test_narrow_footprint_P1 :
    [0x07FF, 0x0800, 0x0883, 0x0884].map
        (narrowFootprint [.extWrite 0x0A#8 0x0084#16, .extWrite 0x0B#8 0x0800#16]) = [false, true, true, false] := by decide
theorem test_listed_footprint :
    [0x07FF, 0x0800, 0x0801].map (inFootprint
        { launchConfig with footprint := .listed [⟨[(0x0A#8, 0x0084#16), (0x0B#8, 0x0800#16)], [⟨0x0800, 1⟩]⟩] }
        [.read 0 1#16, .extWrite 0x0A#8 0x0084#16, .write 0 1#16, .extWrite 0x0B#8 0x0800#16]) = [false, true, false] := by
  decide
theorem test_cr_of_external :
    [0x0000#16, 0x0100#16, 0x0200#16, 0x0300#16, 0xFCFF#16, 0xFFFF#16, 0x0142#16, 0x8280#16].map crOfExternal =
      [0#2, 1#2, 2#2, 3#2, 0#2, 3#2, 1#2, 2#2] := by decide

/-! ## WER and RER (vectors 2.2, 2.3) -/

/-- W1. -/
theorem test_WER :
    gives (exec (.wer 1 0x0A#8) ((base.setReg 1 0x0084#16).setCr 2#2)) (fun t =>
      t.events == [.extWrite 0x0A#8 0x0084#16] && t.pc == 0x0102#16 && t.cr == 2#2 && t.mem == []) = true := by decide
/-- W7, W8: the mode is checked before the presence of the external register. -/
theorem test_WER_stops :
    faultOf (exec (.wer 1 0x0A#8) { base with mode := .user }) = some (.privilegeViolation 0x0100#16) ∧
      refusalOf (exec (.wer 1 0x0A#8) { base with config := { launchConfig with extPresent := [⟨0x0B, 1⟩] } }) =
        some .noExternalRegister := by decide
/-- E1–E8: r3 and CR, whatever value is read. -/
theorem test_RER :
    gives (exec (.rer 3 0x0A#8) base) (fun t => t.pc == 0x0102#16 && t.draws == 1 && t.events.length == 1) = true := by decide
/-- E9, E10. -/
theorem test_RER_stops :
    refusalOf (exec (.rer 0 0x0A#8) base) = some .r3Zero ∧
      faultOf (exec (.rer 3 0x0A#8) { base with mode := .user }) = some (.privilegeViolation 0x0100#16) := by decide

/-! ## The segment table (vectors 2.7) -/

/-- S6. -/
def s6 : State := poke (base.setReg 4 0x2000#16) 0x2000 (rampList 0x1100 16)
/-- S7. -/
def s7 : State := poke (poke (base.setReg 2 0x0010#16) 0x3010 [0x4000#16]) 0x4000 (rampList 0x0F00 16)
/-- S8. -/
def s8 : State := poke base 0x3000 (rampList 0 16)
/-- S1, S2, S5 in one state: TR[i] = 0xA000 + i. -/
def s1 : State :=
  poke (((((base.setTr (ramp 0xA000)).setReg 1 0x0400#16).setReg 3 0x0500#16).setReg 5 0x0004#16).setCr 1#2)
    0x0600 [0x0600#16, 0x0000#16, 0x0900#16]

theorem test_TLR : gives (exec (.tlr 4) s6) (fun t => t.tr == ramp 0x1100 && t.pc == 0x0102#16 && t.mem == s6.mem) = true := by
  decide
theorem test_TL : gives (exec (.tl 0 0x3000#16) s8) (fun t => t.tr == ramp 0 && t.pc == 0x0104#16) = true := by decide
theorem test_TLInd : gives (exec (.tlInd 2 0x3000#16) s7) (fun t => t.tr == ramp 0x0F00 && t.pc == 0x0104#16) = true := by
  decide
theorem test_TSR :
    gives (exec (.tsr 1) s1) (fun t =>
      peek t 0x0400 16 == (rampList 0xA000 16).map some && t.pc == 0x0102#16 && t.tr == s1.tr && t.cr == 1#2) = true := by
  decide
/-- S12: the block runs past 0xFFFE and goes on at 0x0000. -/
theorem test_TSR_wraps :
    gives (exec (.tsr 1) (s1.setReg 1 0xFFF0#16)) (fun t =>
      peek t 0xFFF0 8 ++ peek t 0 8 == (rampList 0xA000 16).map some) = true := by decide
theorem test_TS :
    gives (exec (.ts 3 0x0010#16) s1) (fun t =>
      peek t 0x0510 16 == (rampList 0xA000 16).map some && t.pc == 0x0104#16) = true := by decide
/-- S13, S11. -/
theorem test_TS_stops :
    refusalOf (exec (.ts 0 0x0400#16) { s1 with config := { launchConfig with programText := [⟨0x041F, 1⟩] } }) =
        some .storeIntoCode ∧
      refusalOf (exec (.ts 0 0x0401#16) s1) = some .oddAddress := by decide
/-- S4: the pointer is read before the block overwrites it. -/
theorem test_TSInd_over_pointer :
    gives (exec (.tsInd 0 0x0600#16) s1) (fun t => peek t 0x0600 16 == (rampList 0xA000 16).map some) = true := by decide
/-- S5. -/
theorem test_TSInd :
    gives (exec (.tsInd 5 0x0600#16) s1) (fun t =>
      peek t 0x0900 16 == (rampList 0xA000 16).map some && t.pc == 0x0104#16) = true := by decide

/-! ## The accumulators (vectors 2.8) -/

/-- The operand of F1. -/
def operand : Vector Word 3 := #v[0x4000#16, 0x0000#16, 0x0001#16]
/-- A machine that gives the operand a class. -/
def classed (k : FpClass) (s : State) : State := { s with config := { s.config with fpClasses := [⟨operand, k⟩] } }
/-- F1, F5, F6: the operand at 0x0100, at 0x0206 and at 0x0800, a pointer at 0x0200. -/
def f1 : State :=
  poke (poke (poke ((base.setReg 6 0x0100#16).setReg 3 0x0006#16) 0x0100 [0x4000#16, 0x0000#16, 0x0001#16])
    0x0200 [0x0800#16, 0x0000#16, 0x0000#16, 0x4000#16, 0x0000#16, 0x0001#16]) 0x0800 [0x4000#16, 0x0000#16, 0x0001#16]
/-- F7, F8, F9: pointers at 0x0200 and 0x0814. -/
def f7 : State :=
  poke (poke ((((base.setFpa operand).setReg 7 0x0300#16).setReg 2 0x0004#16).setCr 2#2) 0x0200 [0x0800#16]) 0x0814 [0x0900#16]

/-- F1, F2, F3. -/
theorem test_FLDR :
    [FpClass.positive, .zero, .negative].all (fun k =>
      gives (exec (.fldr 6) (classed k f1)) (fun t => t.fpa == operand && t.cr == crOfClass k && t.pc == 0x0102#16)) = true := by
  decide
/-- F4: CR = 3; the accumulators are free. -/
theorem test_FLDR_aborted :
    gives (exec (.fldr 6) (classed .unnormalized f1)) (fun t => t.cr == 3#2 && t.pc == 0x0102#16 && t.draws == 1) = true := by
  decide
theorem test_FLD :
    gives (exec (.fld 3 0x0200#16) (classed .negative f1)) (fun t => t.fpa == operand && t.cr == 2#2 && t.pc == 0x0104#16) = true := by
  decide
theorem test_FLDInd :
    gives (exec (.fldInd 0 0x0200#16) (classed .zero f1)) (fun t => t.fpa == operand && t.cr == 0#2 && t.pc == 0x0104#16) = true := by
  decide
theorem test_FSTR :
    gives (exec (.fstr 7) f7) (fun t =>
      peek t 0x0300 3 == [some 0x4000#16, some 0x0000#16, some 0x0001#16] && t.cr == 2#2 && t.fpa == operand) = true := by decide
theorem test_FST :
    gives (exec (.fst 2 0x1000#16) f7) (fun t =>
      peek t 0x1004 3 == [some 0x4000#16, some 0x0000#16, some 0x0001#16] && t.pc == 0x0104#16) = true := by decide
/-- F8. -/
theorem test_FSTInd_T6 :
    gives (exec (.fstInd 0 0x0200#16) f7) (fun t =>
      peek t 0x0800 3 == [some 0x4000#16, some 0x0000#16, some 0x0001#16] && t.pc == 0x0104#16) = true := by decide
/-- F9. -/
theorem test_FSTInd_T7 :
    gives (exec (.fstInd 2 0x0810#16) f7) (fun t =>
      peek t 0x0900 3 == [some 0x4000#16, some 0x0000#16, some 0x0001#16] && t.pc == 0x0104#16) = true := by decide
/-- F10, F11. -/
theorem test_FSTR_user :
    gives (exec (.fstr 7) { f7 with mode := .user }) (fun t => t.pc == 0x0102#16) = true ∧
      faultOf (exec (.fstr 7) { f7 with mode := .user, config := { launchConfig with fpSystemOnly := true } }) =
        some (.privilegeViolation 0x0100#16) := by decide

/-! ## Steps -/

theorem test_step_runs_the_placed_word :
    gives (step ((s1.withFetchWord 16 0xB823))) (fun t =>
      peek t 0x0400 16 == (rampList 0xA000 16).map some && t.pc == 0x0102#16) = true := by decide
theorem test_step_from_reset : gives (step (State.reset.withFetchWord 32 0x0600B841)) (fun t => t.pc == 4#16) = true := by decide
theorem test_step_from_bare_reset : faultOf (step State.reset) = some (.unwrittenMemory 0) := by decide

/-! ## Witnesses: for every statement with hypotheses, states and operands that meet them, one conjunct per clause -/

/-- A configuration with some fields changed. -/
def config (f : Config → Config) (s : State) : State := { s with config := f s.config }

/-- User mode. -/
def user (s : State) : State := { s with mode := .user }

/-- A P851M, which has I/O Processor 0 alone and neither option. -/
def p851 (s : State) : State := config (fun c => { c with model := .p851m, hasMmu := false, hasFfp := false }) s

/-- A machine whose translation answers a fault for one address and one kind of access. -/
def faulting (addr : Word) (kind : AccessKind) (s : State) : State :=
  config (fun c => { c with translation := [⟨s.tr, s.mode, addr, kind, none⟩] }) s

/-- A machine whose memory has a hole. -/
def hole (first size : Nat) (s : State) : State :=
  config (fun c => { c with memPresent := [⟨0, first⟩, ⟨first + size, 0x10000⟩] }) s

/-- A machine with program text. -/
def text (first size : Nat) (s : State) : State := config (fun c => { c with programText := [⟨first, size⟩] }) s

theorem witness_TsrWordDecodes_TsWordsDecode_OpenLongWordsDecode :
    launchEncoding.disjoint = true ∧ ({ launchEncoding with rerBit8 := some true } : Encoding).disjoint = true := by decide

theorem witness_ShortWordsDecode :
    launchEncoding.disjoint = true ∧
    (0x77#8 &&& ~~~launchEncoding.r3Field = launchEncoding.werHi ∧ (0x7F#8).getLsbD 7 = false) ∧
    (0x78#8 &&& ~~~launchEncoding.r3Field = launchEncoding.rerHi ∧
      ∀ b, launchEncoding.rerBit8 = some b → (0xFF#8).getLsbD 7 = b) ∧
    ({ launchEncoding with rerBit8 := some true } : Encoding).disjoint = true ∧
    (∀ b, ({ launchEncoding with rerBit8 := some true } : Encoding).rerBit8 = some b → (0x80#8).getLsbD 7 = b) := by decide

theorem witness_DecodeOfEncode :
    launchEncoding.valid = true ∧
    [Instr.wer 7 0x7F#8, .wer 0 0x00#8, .rer 7 0xFF#8, .tlr 15, .tl 0 0xFFFF#16, .tlInd 15 0#16, .tsr 0, .ts 15 0xFFFF#16,
      .tsInd 1 2#16, .fldr 15, .fld 0 0#16, .fldInd 15 0xFFFE#16, .fstr 15, .fst 0 1#16, .fstInd 15 0xFFFF#16].all
      launchEncoding.admits = true := by decide

theorem witness_EncodeOfDecode_InstructionsHaveOneOrTwoWords :
    launchEncoding.valid = true ∧ decode launchEncoding [0xB8#8, 0x6B#8, 0x06#8, 0x00#8, 0xFF#8] =
      .ok (.tsInd 5 0x0600#16, [0xFF#8]) ∧
    decode launchEncoding [0x7F#8, 0xFF#8] = .ok (.rer 7 0xFF#8, []) := by decide

theorem witness_StepRunsTheDecodedInstruction :
    (accessible (poke s1 0x0100 [0xB823#16]) 0x0100#16 .fetch = some (0x0100, 0xB823#16) ∧
      decode launchEncoding (wordChars 0xB823#16) = .ok (.tsr 1, [])) ∧
    ((0xFFFC#16 ≠ 0xFFFE#16 ∧
      accessible (poke { s1 with pc := 0xFFFC#16 } 0xFFFC [0xB847#16, 0x0010#16]) 0xFFFC#16 .fetch = some (0xFFFC, 0xB847#16) ∧
      accessible (poke { s1 with pc := 0xFFFC#16 } 0xFFFC [0xB847#16, 0x0010#16]) (0xFFFC#16 + 2#16) .fetch =
        some (0xFFFE, 0x0010#16)) ∧
      decode launchEncoding (wordChars 0xB847#16 ++ wordChars 0x0010#16) = .ok (.ts 3 0x0010#16, [])) ∧
    gives (exec (.tsr 1) s1) (fun t => !t.controlWordSent) = true ∧
    gives (exec (.wer 1 0x0A#8) base) (fun t => t.controlWordSent) = true ∧
    faultOf (exec (.tsr 1) (user s1)) = some (.privilegeViolation 0x0100#16) ∧
    refusalOf (exec (.tsr 0) s1) = some .r2ZeroT3 := by decide

theorem witness_FetchStops :
    isEven ({ base with pc := 0x0101#16 } : State).pc = false ∧
    (isEven base.pc = true ∧ translate (faulting 0x0100#16 .fetch base).config base.tr base.mode base.pc .fetch = none) ∧
    (isEven base.pc = true ∧ translate (hole 0x0101 1 base).config base.tr base.mode base.pc .fetch = some 0x0100 ∧
      wordPresent (hole 0x0101 1 base).config 0x0100 = false) ∧
    (wordPresent base.config 0x0100 = true ∧ base.mem.readWord 0x0100 = none) ∧
    (accessible (poke { base with pc := 0xFFFE#16 } 0xFFFE [0xB841#16]) 0xFFFE#16 .fetch = some (0xFFFE, 0xB841#16) ∧
      needsSecondWord launchEncoding 0xB841#16 = true) := by decide

theorem witness_UndecodableWordsAreRefused :
    (accessible (poke base 0x0100 [0x0000#16]) base.pc .fetch = some (0x0100, 0x0000#16) ∧
      findRow launchEncoding 0x0000#16 = none) ∧
    (accessible (poke base 0x0100 [0xB81F#16]) base.pc .fetch = some (0x0100, 0xB81F#16) ∧
      launchEncoding.disjoint = true ∧ 0xB81F#16 = BitVec.ofNat 16 (0xB801 + 2 * (15 : RegNum).val)) := by decide

theorem witness_WerSendsTheRegister :
    ((15 : RegNum) ≠ 0 ∧ (0x7F#8).getLsbD 7 = false ∧ iopNumberOf 0x7F#8 ≤ iopMax base.config.model ∧ base.mode = .system ∧
      extAnswers base.config 0x7F#8 = true) ∧
    ((1 : RegNum) ≠ 0 ∧ (0x0F#8).getLsbD 7 = false ∧ iopNumberOf 0x0F#8 ≤ iopMax (p851 base).config.model ∧
      (p851 base).mode = .system ∧ extAnswers (p851 base).config 0x0F#8 = true) := by decide

theorem witness_WerStops :
    ((15 : RegNum) ≠ 0 ∧ (0x80#8).getLsbD 7 = true) ∧
    ((0x10#8).getLsbD 7 = false ∧ (p851 base).config.model = .p851m ∧ iopNumberOf 0x10#8 ≠ 0) ∧
    ((0x0F#8).getLsbD 7 = false ∧ ((p851 base).config.model = .p851m → iopNumberOf 0x0F#8 = 0) ∧ (user (p851 base)).mode = .user) ∧
    ((0x10#8).getLsbD 7 = false ∧ (base.config.model = .p851m → iopNumberOf 0x10#8 = 0) ∧ base.mode = .system ∧
      extAnswers (config (fun c => { c with extPresent := [⟨0x11, 0xEF⟩] }) base).config 0x10#8 = false) := by decide

theorem witness_RerLoadsRegisterAndCondition_RerStops :
    ((15 : RegNum) ≠ 0 ∧ base.mode = .system ∧ extAnswers base.config 0xFF#8 = true) ∧ (user base).mode = .user ∧
      extAnswers (config (fun c => { c with extPresent := [⟨0, 0xFF⟩] }) base).config 0xFF#8 = false := by decide

theorem witness_WerDeliversTheControlWord :
    (∃ t, exec (.wer 1 (BitVec.ofNat 8 (16 * 7 + 2 * 7 + 1))) base = .next t) ∧
    (∃ t, exec (.wer 15 (BitVec.ofNat 8 (16 * 0 + 2 * 0 + 0))) (p851 base) = .next t) ∧
    ((7, 7, false) : Nat × Nat × Bool) ≠ (7, 7, decide (1 = 1)) :=
  ⟨next_of_gives (by decide), next_of_gives (by decide), by decide⟩

theorem witness_OnlyWerDeliversControlWords :
    (∀ r3 a, Instr.rer 3 0x0A#8 ≠ .wer r3 a) ∧ ∃ t, exec (.rer 3 0x0A#8) base = .next t :=
  ⟨(by intro r3 a h; cases h), next_of_gives (by decide)⟩


theorem witness_SegmentLoadsComplete :
    (s6.config.model = .p857m ∧ s6.config.hasMmu = true ∧ s6.mode = .system ∧ Quiet s6) ∧
    ((4 : RegNum) ≠ 0 ∧ BlockReads s6 (s6.reg 4) (wordsFrom 0x2000 16) (ramp 0x1100)) ∧
    BlockReads s8 (if (0 : RegNum) = 0 then 0x3000#16 else 0x3000#16 + s8.reg 0) (wordsFrom 0x3000 16) (ramp 0) ∧
    (Quiet s7 ∧ accessible s7 (if (2 : RegNum) = 0 then 0x3000#16 else 0x3000#16 + s7.reg 2) .read = some (0x3010, 0x4000#16) ∧
      BlockReads s7 0x4000#16 (wordsFrom 0x4000 16) (ramp 0x0F00)) := by
  unfold BlockReads; decide

theorem witness_SegmentStoresComplete :
    (s1.config.model = .p857m ∧ s1.config.hasMmu = true ∧ s1.mode = .system ∧ Quiet s1) ∧
    ((1 : RegNum) ≠ 0 ∧ BlockStores s1 (s1.reg 1) (wordsFrom 0x0400 16)) ∧
    BlockStores s1 (if (3 : RegNum) = 0 then 0x0010#16 else 0x0010#16 + s1.reg 3) (wordsFrom 0x0510 16) ∧
    (accessible s1 (if (5 : RegNum) = 0 then 0x0600#16 else 0x0600#16 + s1.reg 5) .read = some (0x0604, 0x0900#16) ∧
      BlockStores s1 0x0900#16 (wordsFrom 0x0900 16)) := by
  unfold BlockStores; decide

theorem witness_SegmentChecksStop :
    usesMmu (.tsr 0) = true ∧ t3Zero (.tsr 0) = true ∧ t3Zero (.tsr 15) = false ∧ t3Zero (.ts 0 0#16) = false ∧
    ¬((p851 base).config.model = .p857m ∧ (p851 base).config.hasMmu = true) ∧
    (base.config.model = .p857m ∧ base.config.hasMmu = true ∧ (user base).mode = .user) := by decide

theorem witness_SegmentTableRoundTrip :
    (1 : RegNum) ≠ 0 ∧ s1.config.model = .p857m ∧ s1.config.hasMmu = true ∧ s1.config.translation = [] ∧ s1.mode = .system ∧
    Quiet s1 ∧ isEven (s1.reg 1) = true ∧
    (∀ k < 16, wordPresent s1.config (s1.reg 1 + BitVec.ofNat 16 (2 * k)).toNat = true ∧
      wordInText s1.config (s1.reg 1 + BitVec.ofNat 16 (2 * k)).toNat = false) := by decide

theorem witness_FloatLoadsComplete :
    (f1.config.model = .p857m ∧ f1.config.hasFfp = true ∧ (f1.config.fpSystemOnly = false ∨ f1.mode = .system) ∧ Quiet f1) ∧
    ((6 : RegNum) ≠ 0 ∧ BlockReads f1 (f1.reg 6) (wordsFrom 0x0100 3) operand) ∧
    BlockReads f1 (if (3 : RegNum) = 0 then 0x0200#16 else 0x0200#16 + f1.reg 3) (wordsFrom 0x0206 3) operand ∧
    (accessible f1 (if (0 : RegNum) = 0 then 0x0200#16 else 0x0200#16 + f1.reg 0) .read = some (0x0200, 0x0800#16) ∧
      BlockReads f1 0x0800#16 (wordsFrom 0x0800 3) operand) := by
  unfold BlockReads; decide

theorem witness_AbortedLoadSetsConditionThree :
    fpClass (classed .unnormalized f1).config operand = .unnormalized ∧ Quiet (classed .unnormalized f1) ∧
    ((6 : RegNum) ≠ 0 ∧ BlockReads (classed .unnormalized f1) (f1.reg 6) (wordsFrom 0x0100 3) operand) ∧
    BlockReads (classed .unnormalized f1) (if (3 : RegNum) = 0 then 0x0200#16 else 0x0200#16 + f1.reg 3)
      (wordsFrom 0x0206 3) operand ∧
    (accessible (classed .unnormalized f1) 0x0200#16 .read = some (0x0200, 0x0800#16) ∧
      BlockReads (classed .unnormalized f1) 0x0800#16 (wordsFrom 0x0800 3) operand) := by
  unfold BlockReads; decide

theorem witness_FloatStoresComplete :
    (f7.config.model = .p857m ∧ f7.config.hasFfp = true ∧ (f7.config.fpSystemOnly = false ∨ f7.mode = .system) ∧ Quiet f7) ∧
    ((7 : RegNum) ≠ 0 ∧ BlockStores f7 (f7.reg 7) (wordsFrom 0x0300 3)) ∧
    BlockStores f7 (if (2 : RegNum) = 0 then 0x1000#16 else 0x1000#16 + f7.reg 2) (wordsFrom 0x1004 3) ∧
    (accessible f7 (if (2 : RegNum) = 0 then 0x0810#16 else 0x0810#16 + f7.reg 2) .read = some (0x0814, 0x0900#16) ∧
      BlockStores f7 0x0900#16 (wordsFrom 0x0900 3)) := by
  unfold BlockStores; decide

theorem witness_FloatChecksStop :
    usesFfp (.fldr 0) = true ∧ t3Zero (.fldr 0) = true ∧ t3Zero (.fstr 15) = false ∧ t3Zero (.fst 0 0#16) = false ∧
    ¬((p851 base).config.model = .p857m ∧ (p851 base).config.hasFfp = true) ∧
    (let s := user (config (fun c => { c with fpSystemOnly := true }) base);
      s.config.model = .p857m ∧ s.config.hasFfp = true ∧ s.config.fpSystemOnly = true ∧ s.mode = .user) := by decide

theorem witness_AccumulatorRoundTrip :
    let s := classed .zero f7
    (7 : RegNum) ≠ 0 ∧ s.config.model = .p857m ∧ s.config.hasFfp = true ∧ s.config.translation = [] ∧
    s.config.fpSystemOnly = false ∧ Quiet s ∧ isEven (s.reg 7) = true ∧
    (∀ k < 3, wordPresent s.config (s.reg 7 + BitVec.ofNat 16 (2 * k)).toNat = true ∧
      wordInText s.config (s.reg 7 + BitVec.ofNat 16 (2 * k)).toNat = false) ∧
    fpClass s.config s.fpa ≠ .unnormalized := by decide

theorem ready_mmu {i : Instr} {s : State} (h : t3Zero i = false) (hf : usesFfp i = false)
    (hs : s.config.model = .p857m ∧ s.config.hasMmu = true ∧ s.mode = .system) : Ready i s :=
  ⟨h, fun _ => hs, fun hu => by rw [hf] at hu; cases hu⟩

theorem ready_ffp {i : Instr} {s : State} (h : t3Zero i = false) (hf : usesMmu i = false)
    (hs : s.config.model = .p857m ∧ s.config.hasFfp = true ∧ (s.config.fpSystemOnly = false ∨ s.mode = .system)) : Ready i s :=
  ⟨h, fun hu => (by rw [hf] at hu; cases hu), fun _ => hs⟩

theorem witness_OddAddressesAreRefused :
    (Ready (.tsr 1) (s1.setReg 1 0x0401#16) ∧ blockAddress (s1.setReg 1 0x0401#16) (.tsr 1) = some 0x0401#16 ∧
      isEven 0x0401#16 = false) ∧
    (Ready (.fldInd 0 0x1001#16) f1 ∧ pointerAddress f1 (.fldInd 0 0x1001#16) = some 0x1001#16 ∧ isEven 0x1001#16 = false) ∧
    (let s := poke base 0x1000 [0x2001#16];
      Ready (.tlInd 0 0x1000#16) s ∧ pointerAddress s (.tlInd 0 0x1000#16) = some 0x1000#16 ∧
      accessible s 0x1000#16 .read = some (0x1000, 0x2001#16) ∧ isEven 0x2001#16 = false) ∧
    isEven ({ base with pc := 0xFFFF#16 } : State).pc = false :=
  ⟨⟨ready_mmu (by decide) (by decide) (by decide), by decide, by decide⟩,
    ⟨ready_ffp (by decide) (by decide) (by decide), by decide, by decide⟩,
    ⟨ready_mmu (by decide) (by decide) (by decide), by decide, by decide, by decide⟩, by decide⟩

theorem witness_FirstBadReadStops :
    (let s := faulting 0x201E#16 .read s6;
      Ready (.tlr 4) s ∧ storesMemory (.tlr 4) = false ∧ Quiet s ∧ blockAddress s (.tlr 4) = some 0x2000#16 ∧
      isEven 0x2000#16 = true ∧ 15 < wordsMoved (.tlr 4) ∧
      (∀ j < 15, (accessible s (0x2000#16 + BitVec.ofNat 16 (2 * j)) .read).isSome = true) ∧
      translate s.config s.tr s.mode (0x2000#16 + BitVec.ofNat 16 (2 * 15)) .read = none) ∧
    (let s := hole 0x201F 1 s6;
      Ready (.tlr 4) s ∧ Quiet s ∧ (∀ j < 15, (accessible s (0x2000#16 + BitVec.ofNat 16 (2 * j)) .read).isSome = true) ∧
      translate s.config s.tr s.mode (0x2000#16 + BitVec.ofNat 16 (2 * 15)) .read = some 0x201E ∧
      wordPresent s.config 0x201E = false) ∧
    (let s := base.setReg 6 0x1000#16;
      Ready (.fldr 6) s ∧ Quiet s ∧ blockAddress s (.fldr 6) = some 0x1000#16 ∧ 0 < wordsMoved (.fldr 6) ∧
      translate s.config s.tr s.mode (0x1000#16 + BitVec.ofNat 16 (2 * 0)) .read = some 0x1000 ∧
      wordPresent s.config 0x1000 = true ∧ s.mem.readWord 0x1000 = none) :=
  ⟨⟨ready_mmu (by decide) (by decide) (by decide), by decide⟩, ⟨ready_mmu (by decide) (by decide) (by decide), by decide⟩,
    ⟨ready_ffp (by decide) (by decide) (by decide), by decide⟩⟩

theorem witness_FirstBadWriteStops :
    (let s := faulting 0x041E#16 .write s1;
      Ready (.tsr 1) s ∧ storesMemory (.tsr 1) = true ∧ blockAddress s (.tsr 1) = some 0x0400#16 ∧
      isEven 0x0400#16 = true ∧ 15 < wordsMoved (.tsr 1) ∧
      (∀ j < 15, (storable s (0x0400#16 + BitVec.ofNat 16 (2 * j))).isSome = true) ∧
      translate s.config s.tr s.mode (0x0400#16 + BitVec.ofNat 16 (2 * 15)) .write = none) ∧
    (let s := hole 0x0400 1 s1;
      Ready (.tsr 1) s ∧ translate s.config s.tr s.mode (0x0400#16 + BitVec.ofNat 16 (2 * 0)) .write = some 0x0400 ∧
      wordPresent s.config 0x0400 = false) ∧
    (let s := text 0x0305 1 f7;
      Ready (.fstr 7) s ∧ blockAddress s (.fstr 7) = some 0x0300#16 ∧ 2 < wordsMoved (.fstr 7) ∧
      (∀ j < 2, (storable s (0x0300#16 + BitVec.ofNat 16 (2 * j))).isSome = true) ∧
      translate s.config s.tr s.mode (0x0300#16 + BitVec.ofNat 16 (2 * 2)) .write = some 0x0304 ∧
      wordPresent s.config 0x0304 = true ∧ wordInText s.config 0x0304 = true) :=
  ⟨⟨ready_mmu (by decide) (by decide) (by decide), by decide⟩, ⟨ready_mmu (by decide) (by decide) (by decide), by decide⟩,
    ⟨ready_ffp (by decide) (by decide) (by decide), by decide⟩⟩

theorem witness_BadPointerStops :
    (let s := faulting 0x1000#16 .read base;
      Ready (.tlInd 0 0x1000#16) s ∧ pointerAddress s (.tlInd 0 0x1000#16) = some 0x1000#16 ∧ isEven 0x1000#16 = true ∧
      translate s.config s.tr s.mode 0x1000#16 .read = none) ∧
    (let s := hole 0x1001 1 base;
      Ready (.fstInd 0 0x1000#16) s ∧ pointerAddress s (.fstInd 0 0x1000#16) = some 0x1000#16 ∧
      translate s.config s.tr s.mode 0x1000#16 .read = some 0x1000 ∧ wordPresent s.config 0x1000 = false) ∧
    (Ready (.tsInd 0 0xFFFE#16) base ∧ pointerAddress base (.tsInd 0 0xFFFE#16) = some 0xFFFE#16 ∧
      translate base.config base.tr base.mode 0xFFFE#16 .read = some 0xFFFE ∧ wordPresent base.config 0xFFFE = true ∧
      base.mem.readWord 0xFFFE = none) :=
  ⟨⟨ready_mmu (by decide) (by decide) (by decide), by decide⟩, ⟨ready_ffp (by decide) (by decide) (by decide), by decide⟩,
    ⟨ready_mmu (by decide) (by decide) (by decide), by decide⟩⟩

/-- A block reached through a pointer, whose last word lies in the program text. -/
theorem witness_FirstBadWriteStops_pointer :
    let s := text 0x091E 1 s1
    Ready (.tsInd 5 0x0600#16) s ∧ BlockAt (.tsInd 5 0x0600#16) s 0x0900#16 ∧ isEven 0x0900#16 = true ∧
    (∀ j < 15, (storable s (0x0900#16 + BitVec.ofNat 16 (2 * j))).isSome = true) ∧ wordInText s.config 0x091E = true :=
  ⟨ready_mmu (by decide) (by decide) (by decide), .inr ⟨0x0604#16, 0x0604, by decide⟩, by decide⟩

/-- A state after a WER: the I/O Processors are no longer quiet. -/
def busy (s : State) : State := s.record (.extWrite 0x0A#8 0x0084#16)

theorem witness_BlocksCompleteBesideTransfers :
    (Ready (.tlr 4) (busy s6) ∧ blockAddress (busy s6) (.tlr 4) = some 0x2000#16 ∧ storesMemory (.tlr 4) = false ∧
      ∀ k < wordsMoved (.tlr 4), (accessible (busy s6) (0x2000#16 + BitVec.ofNat 16 (2 * k)) .read).isSome = true) ∧
    (Ready (.fstr 7) (busy f7) ∧ blockAddress (busy f7) (.fstr 7) = some 0x0300#16 ∧ storesMemory (.fstr 7) = true ∧
      ∀ k < wordsMoved (.fstr 7), (storable (busy f7) (0x0300#16 + BitVec.ofNat 16 (2 * k))).isSome = true) ∧
    (Ready (.fldInd 0 0x0200#16) (busy f1) ∧ pointerAddress (busy f1) (.fldInd 0 0x0200#16) = some 0x0200#16 ∧
      accessible (busy f1) 0x0200#16 .read = some (0x0200, 0x0800#16) ∧
      ∀ k < wordsMoved (.fldInd 0 0x0200#16), (accessible (busy f1) (0x0800#16 + BitVec.ofNat 16 (2 * k)) .read).isSome = true) ∧
    (Ready (.tsInd 5 0x0600#16) (busy s1) ∧ pointerAddress (busy s1) (.tsInd 5 0x0600#16) = some 0x0604#16 ∧
      accessible (busy s1) 0x0604#16 .read = some (0x0604, 0x0900#16) ∧
      ∀ k < wordsMoved (.tsInd 5 0x0600#16), (storable (busy s1) (0x0900#16 + BitVec.ofNat 16 (2 * k))).isSome = true) :=
  ⟨⟨ready_mmu (by decide) (by decide) (by decide), by decide⟩, ⟨ready_ffp (by decide) (by decide) (by decide), by decide⟩,
    ⟨ready_ffp (by decide) (by decide) (by decide), by decide⟩, ⟨ready_mmu (by decide) (by decide) (by decide), by decide⟩⟩

theorem witness_AddressSumsWrap : (15 : Nat) < 16 ∧ isEven 0xFFFE#16 = true := by decide

theorem witness_GeneralRegistersReadAndWritten :
    ((∃ t, exec (.rer 3 0x0A#8) base = .next t) ∧ registerWritten (.rer 3 0x0A#8) ≠ some 15) ∧
    (registerRead (.rer 3 0x0A#8) ≠ some 3 ∧ registerRead (.ts 0 0x0600#16) ≠ some 0 ∧ registerRead (.wer 1 0x0A#8) ≠ some 2) :=
  ⟨⟨next_of_gives (by decide), by decide⟩, by decide⟩

theorem witness_ConditionRegisterFrame_UnitRegistersFrame :
    ((∃ t, exec (.tlr 4) s6 = .next t) ∧ writesCr (.tlr 4) = false ∧ writesFpa (.tlr 4) = false) ∧
    ((∃ t, exec (.fldr 6) (classed .zero f1) = .next t) ∧ writesTr (.fldr 6) = false) ∧
    (∃ t, exec (.rer 15 0xFF#8) base = .next t) :=
  ⟨⟨next_of_gives (by decide), by decide⟩, ⟨next_of_gives (by decide), by decide⟩, next_of_gives (by decide)⟩

theorem witness_ProgramCounterAdvances :
    (∃ t, exec (.wer 1 0x0A#8) { base with pc := 0xFFFE#16 } = .next t) ∧
    (∃ t, step (poke s1 0x0100 [0xB823#16]) = .next t) ∧
    (accessible (poke { base with pc := 0xFFFE#16 } 0xFFFE [0xB861#16]) 0xFFFE#16 .fetch = some (0xFFFE, 0xB861#16) ∧
      needsSecondWord launchEncoding 0xB861#16 = true) :=
  ⟨next_of_gives (by decide), next_of_gives (by decide), by decide⟩

theorem witness_NonStoringInstructionsLeaveMemory :
    Quiet s6 ∧ storesMemory (.tlr 4) = false ∧ ∃ t, exec (.tlr 4) s6 = .next t :=
  ⟨by decide, by decide, next_of_gives (by decide)⟩

theorem witness_StoringInstructionsLeaveTheRest :
    (Quiet s1 ∧ storesMemory (.tsr 1) = true ∧ (∃ t, exec (.tsr 1) s1 = .next t) ∧ blockAddress s1 (.tsr 1) = some 0x0400#16 ∧
      (∀ k < wordsMoved (.tsr 1), ∀ p ∈ translate s1.config s1.tr s1.mode (0x0400#16 + BitVec.ofNat 16 (2 * k)) .write,
        outsideWord 0x0420 p)) ∧
    (Quiet f7 ∧ storesMemory (.fstInd 2 0x0810#16) = true ∧ (∃ t, exec (.fstInd 2 0x0810#16) f7 = .next t) ∧
      pointerAddress f7 (.fstInd 2 0x0810#16) = some 0x0814#16 ∧ accessible f7 0x0814#16 .read = some (0x0814, 0x0900#16) ∧
      (∀ k < wordsMoved (.fstInd 2 0x0810#16), ∀ p ∈ translate f7.config f7.tr f7.mode (0x0900#16 + BitVec.ofNat 16 (2 * k)) .write,
        outsideWord 0x08FF p)) :=
  ⟨⟨by decide, by decide, next_of_gives (by decide), by decide, by decide⟩,
    ⟨by decide, by decide, next_of_gives (by decide), by decide, by decide, by decide⟩⟩

theorem witness_SegmentRegistersMatterOnlyToTheMmu :
    (config (fun c => { c with hasMmu := false }) f7).config.hasMmu = false ∧
      ∃ t, exec (.fstr 7) (config (fun c => { c with hasMmu := false }) f7) = .next t :=
  ⟨by decide, next_of_gives (by decide)⟩

/-- One step of TSR in system mode, from a state that satisfies the invariant. -/
theorem witness_StepKeepsTheInvariant_and_statements_about_every_step :
    (poke s1 0x0100 [0xB823#16]).Inv ∧ (∃ t, step (poke s1 0x0100 [0xB823#16]) = .next t) ∧
      ((poke s1 0x0100 [0xB823#16]).mem.readByte 0x0100).isSome = true :=
  ⟨⟨by decide, by decide, by decide⟩, next_of_gives (by decide), by decide⟩

theorem witness_ProgramTextNeverChanges :
    (let s := text 0x0100 2 (poke s1 0x0100 [0xB823#16]);
      (∃ t, step s = .next t) ∧ inSpans s.config.programText 0x0100 = true ∧ inSpans s.config.programText 0x0101 = true) ∧
    (let s := text 0x041F 1 s1;
      Ready (.tsr 1) s ∧ storesMemory (.tsr 1) = true ∧ blockAddress s (.tsr 1) = some 0x0400#16 ∧ isEven 0x0400#16 = true ∧
      15 < wordsMoved (.tsr 1) ∧ (∀ j < 15, (storable s (0x0400#16 + BitVec.ofNat 16 (2 * j))).isSome = true) ∧
      translate s.config s.tr s.mode (0x0400#16 + BitVec.ofNat 16 (2 * 15)) .write = some 0x041E ∧
      wordPresent s.config 0x041E = true ∧ wordInText s.config 0x041E = true) ∧
    (inSpans (text 0x0100 2 (busy base)).config.programText 0x0101 = true ∧ ¬Quiet (text 0x0100 2 (busy base))) :=
  ⟨⟨next_of_gives (by decide), by decide, by decide⟩, ⟨ready_mmu (by decide) (by decide) (by decide), by decide⟩, by decide⟩

theorem witness_UserModeIsConfined :
    (user (poke f7 0x0100 [0xC12F#16])).mode = .user ∧ ∃ t, step (user (poke f7 0x0100 [0xC12F#16])) = .next t :=
  ⟨by decide, next_of_gives (by decide)⟩

theorem witness_RestrictedInstructionsFaultInUserMode :
    (user base).mode = .user ∧
    (restricted (.wer 15 0x7F#8) = true ∧ (Instr.wer 15 0x7F#8).wellFormed = true ∧
      iopNumberOf 0x7F#8 ≤ iopMax (user base).config.model) ∧
    (restricted (.wer 1 0x0F#8) = true ∧ iopNumberOf 0x0F#8 ≤ iopMax (user (p851 base)).config.model) ∧
    (restricted (.tsr 1) = true ∧ (Instr.tsr 1).wellFormed = true ∧
      (usesMmu (.tsr 1) = true → (user base).config.model = .p857m ∧ (user base).config.hasMmu = true)) := by decide

theorem witness_IoTurnsAreConfined :
    Quiet base ∧ ¬Quiet (busy base) ∧ inSpans (busy base).config.memPresent 0x40000 = false ∧
    inSpans (text 0x0100 1 (busy base)).config.programText 0x0100 = true ∧
    (let s := config (fun c => { c with footprint := .narrow }) ((busy base).record (.extWrite 0x0B#8 0x0800#16));
      inFootprint s.config s.events 0x0884 = false ∧ inFootprint s.config s.events 0x0883 = true) := by decide

theorem witness_EveryTranslationIsATable_EveryClassificationIsATable :
    (∃ c : Config, c.hasMmu = true ∧ c.translation = []) ∧ ∃ c : Config, c.fpClasses = [] :=
  ⟨⟨launchConfig, by decide⟩, ⟨launchConfig, by decide⟩⟩

theorem witness_EveryFootprintIsATable :
    (∃ c : Config, c.footprint = .listed []) ∧ (controlWordsOf [.extWrite 0x0A#8 0x0084#16]).length ≤ 1 ∧ 0 < 1 :=
  ⟨⟨{ launchConfig with footprint := .listed [] }, by decide⟩, by decide⟩

/-- A program of one word, TSR A1, and what a claim about it names. -/
def launchOfTsr : Launch where
  entry := 0x0100#16
  mode := .system
  text := [(0x0100, 0xB823#16)]
  model := .p857m
  hasMmu := true
  hasFfp := true
  extPresent := [⟨0, 256⟩]
  x := [(1, 0x0400#16)]
  tr := [(0, 0xA000#16), (15, 0xA00F#16)]
  fpa := [(0, 0x0000#16)]
  memory := [(0x0600, 0x0600#16)]
  claimed := [⟨0x0400, 32⟩]

/-- The start of that launch. -/
def startOfTsr : State := text 0x0100 2 (poke s1 0x0100 [0xB823#16])

theorem startOfTsr_launched : LaunchedAt launchOfTsr startOfTsr where
  atEntry := by decide
  even := by decide
  declared := by decide
  text := by decide
  mode := rfl
  system := fun _ => rfl
  model := by decide
  hasMmu := by decide
  hasFfp := by decide
  extPresent := by decide
  options := fun _ => rfl
  encoding := by decide
  x := List.forall_mem_singleton.2 rfl
  tr := List.forall_mem_cons.2 ⟨rfl, List.forall_mem_singleton.2 rfl⟩
  fpa := List.forall_mem_singleton.2 rfl
  memory := by decide
  noTransfer := fun h => absurd h (by decide)

/-- A run of one step from a given state that satisfies the launch premises, with a word whose fetch is spoken of: the hypotheses of
InhibitedRunsAreRunsOfTheModel, LaunchedWordsAreFetchedThroughoutTheRun and LaunchedModeHoldsThroughoutTheRun. -/
theorem witness_statements_about_launched_runs :
    (∃ t, step startOfTsr = .next t ∧
      (⟨startOfTsr, [(.instruction, t)]⟩ : ChipRun).Follows ∧
      (⟨startOfTsr, [(.instruction, t)]⟩ : ChipRun).InterruptsInhibited ∧
      LaunchPremises launchOfTsr ⟨startOfTsr, [(.instruction, t)]⟩) ∧
    (0x0100, 0xB823#16) ∈ launchOfTsr.text ∧ isEven 0x0100#16 = true ∧
    translate startOfTsr.config startOfTsr.tr startOfTsr.mode 0x0100#16 .fetch = some 0x0100 := by
  obtain ⟨t, ht⟩ := next_of_gives (o := step startOfTsr) (by decide)
  have hi : (⟨startOfTsr, [(.instruction, t)]⟩ : ChipRun).InterruptsInhibited := by
    intro m hm
    rw [List.mem_singleton.1 hm]
  exact ⟨⟨t, ht, ⟨ht, trivial⟩, hi, startOfTsr_launched, hi⟩, by decide⟩

/-- A program of one word, FSTR A7, that runs in user mode: the launch names that mode. -/
def launchInUserMode : Launch where
  entry := 0x0100#16
  mode := .user
  text := [(0x0100, 0xC12F#16)]
  model := .p857m
  hasMmu := true
  hasFfp := true
  extPresent := [⟨0, 256⟩]
  x := [(7, 0x0300#16)]
  tr := []
  fpa := [(0, 0x4000#16)]
  memory := []
  claimed := []

/-- The start of that launch. -/
def startInUserMode : State := user (text 0x0100 2 (poke f7 0x0100 [0xC12F#16]))

theorem startInUserMode_launched : LaunchedAt launchInUserMode startInUserMode where
  atEntry := by decide
  even := by decide
  declared := by decide
  text := by decide
  mode := rfl
  system := by decide
  model := rfl
  hasMmu := rfl
  hasFfp := rfl
  extPresent := rfl
  options := fun _ => rfl
  encoding := by decide
  x := List.forall_mem_singleton.2 rfl
  tr := fun _ h => absurd h List.not_mem_nil
  fpa := List.forall_mem_singleton.2 rfl
  memory := by decide
  noTransfer := fun h => absurd h (by decide)

/-- TSR needs system mode, FSTR does not, and the second word of FST that looks like TSR is no TSR. -/
theorem test_needsSystem :
    launchOfTsr.needsSystem launchEncoding = true ∧ launchInUserMode.needsSystem launchEncoding = false ∧
    usesRestricted launchEncoding [0xC141#16, 0xB823#16, 0xC12F#16] = false ∧
    usesRestricted launchEncoding [0xC141#16, 0xB823#16, 0xB823#16] = true := by decide

theorem witness_NeedsSystemIffARestrictedInstruction :
    launchEncoding.valid = true ∧ ∀ i ∈ [Instr.fst 0 0xB823#16, .fstr 15, .wer 7 0x7F#8], launchEncoding.admits i = true := by
  decide

end Sys2Proof.Tests
end

section
/-! PROOF. Log 35: the table that stands for `IopFootprint` can hold any function of the control words within finite bounds. The
table has one row for each list of control words up to the bound, and a row covers the addresses below the bound one by one. -/

namespace Sys2Proof.Machine

/-- The control words an I/O Processor can be sent are finitely many, and so are the lists of them up to a length. -/
theorem finite_controlWords_length_le (most : Nat) : {words : List (ExtAddr × Word) | words.length ≤ most}.Finite := by
  have finiteBits (n : Nat) : Finite (BitVec n) := .of_injective BitVec.toFin fun _ _ => BitVec.eq_of_toFin_eq
  have := finiteBits 8
  have := finiteBits 16
  exact List.finite_length_le (ExtAddr × Word) most

/-- In a table with one row per key, the first row whose key is `k` is the row made for `k`. -/
theorem find?_map_row {κ ρ : Type} [BEq κ] [LawfulBEq κ] {key : ρ → κ} {row : κ → ρ} (key_row : ∀ k, key (row k) = k)
    {keys : List κ} {k : κ} (hk : k ∈ keys) : ((keys.map row).find? fun r => key r == k) = some (row k) := by
  have found : (keys.find? (· == k)).isSome := List.find?_isSome.2 ⟨k, hk, beq_self_eq_true k⟩
  obtain ⟨k', hk'⟩ := Option.isSome_iff_exists.1 found
  obtain rfl : k' = k := eq_of_beq (List.find?_some (p := (· == k)) hk')
  simp only [List.find?_map, Function.comp_def, key_row, hk', Option.map_some]

/-- The addresses below `size` that `covers` accepts, as spans of one character each. -/
def spansBelow (size : Nat) (covers : Nat → Bool) : List Span := ((List.range size).filter covers).map (⟨·, 1⟩)

/-- Below `size` the spans cover what `covers` accepts. -/
theorem inSpans_spansBelow {size p : Nat} (hp : p < size) (covers : Nat → Bool) :
    inSpans (spansBelow size covers) p = covers p := by
  rw [Bool.eq_iff_iff]
  simp only [inSpans, spansBelow, List.any_map, List.any_eq_true, List.mem_filter, List.mem_range, Function.comp_apply,
    Bool.and_eq_true, decide_eq_true_eq]
  constructor
  · rintro ⟨a, ⟨-, ha⟩, first_le, lt_end⟩
    obtain rfl : a = p := by omega
    exact ha
  · intro h
    exact ⟨p, ⟨hp, h⟩, Nat.le_refl p, Nat.lt_succ_self p⟩

/-- The table of `f` for the listed control words and the addresses below `size`. -/
def footprintTable (f : List (ExtAddr × Word) → Nat → Bool) (lists : List (List (ExtAddr × Word))) (size : Nat) :
    List FootprintRow :=
  lists.map fun words => ⟨words, spansBelow size (f words)⟩

/-- For control words that it lists and addresses below its bound, the table of `f` gives the footprint `f`. -/
theorem listedFootprint_footprintTable {f : List (ExtAddr × Word) → Nat → Bool} {lists : List (List (ExtAddr × Word))}
    {size p : Nat} {words : List (ExtAddr × Word)} (hwords : words ∈ lists) (hp : p < size) :
    listedFootprint (footprintTable f lists size) words p = f words p := by
  rw [listedFootprint, footprintTable, find?_map_row (key := FootprintRow.controlWords) (fun _ => rfl) hwords]
  exact inSpans_spansBelow hp (f words)

/-- Settles O53: the table of `f` for the finitely many lists of at most `most` control words. -/
theorem everyFootprintIsATable : Obligations.EveryFootprintIsATable := by
  intro f most size
  obtain ⟨lists, mem_lists⟩ := (finite_controlWords_length_le most).exists_finset
  refine ⟨footprintTable f lists.toList size, fun c events p listed few below => ?_⟩
  have hwords : controlWordsOf events ∈ lists.toList := Finset.mem_toList.2 ((mem_lists _).2 few)
  rw [inFootprint_listed listed, listedFootprint_footprintTable hwords below]

end Sys2Proof.Machine
end

section
/-! SUPPORT. One shape for the twelve block instructions, what their word transfers can do, and with that everything an
instruction can do when it answers a next state. -/

namespace Sys2Proof.Machine

/-! ## The block instructions -/

/-- The instruction moves a block of words between memory and the registers of a unit. -/
def movesBlock (i : Instr) : Bool := usesMmu i || usesFfp i

/-- The checks of a block instruction before its effective address (R130, R150). -/
def blockChecks (i : Instr) (s : State) : Result Unit := do
  require (!t3Zero i) (.refusal .r2ZeroT3)
  if usesMmu i then segmentChecks s else floatChecks s

/-- The address of the block, and the state in which its first word is moved: types T6 and T7 read their pointer first (R97). -/
def blockStart (i : Instr) (s : State) : Result (Word × State) :=
  match pointerAddress s i with
  | some a => do
    let (e, t) ← memRead s a
    .ok (e, ioTurn t)
  | none => .ok ((blockAddress s i).getD 0#16, s)

/-- What a block instruction does with the block at `e`. -/
def blockTransfer (i : Instr) (e : Word) (s : State) : Result State :=
  if writesTr i then loadSegmentTable e (BitVec.ofNat 16 i.length) s
  else if writesFpa i then loadAccumulators e (BitVec.ofNat 16 i.length) s
  else if usesMmu i then storeSegmentTable e (BitVec.ofNat 16 i.length) s
  else storeAccumulators e (BitVec.ofNat 16 i.length) s

/-- Every block instruction makes its checks, finds its block and moves it. -/
theorem exec_of_movesBlock {i : Instr} (hi : movesBlock i = true) (s : State) :
    exec i s = finish (do
      blockChecks i s
      let (e, t) ← blockStart i s
      blockTransfer i e t) := by
  cases i with
  | wer | rer => cases hi
  | tlr | tsr | fldr | fstr =>
    rw [blockChecks, bind_assoc]
    rfl
  | _ => rfl

theorem exec_next_of_movesBlock {i : Instr} (hi : movesBlock i = true) {s t : State} (h : exec i s = .next t) :
    ∃ e u, blockStart i s = .ok (e, u) ∧ blockTransfer i e u = .ok t := by
  rw [exec_of_movesBlock hi, finish_next] at h
  obtain ⟨-, -, h⟩ := bind_ok.1 h
  obtain ⟨⟨e, u⟩, start, transfer⟩ := bind_ok.1 h
  exact ⟨e, u, start, transfer⟩

/-! ## Word transfers -/

/-- The second state is reached from `s` by `n` word transfers of one instruction and turns of the I/O Processors beside them. A
store goes where there is memory and no program text (R59, R64). -/
inductive Transfers (s : State) : Nat → State → Prop where
  | start : Transfers s 0 s
  | turn {n : Nat} {u : State} (hu : Transfers s n u) : Transfers s n (ioTurn u)
  | read {n : Nat} {u : State} (hu : Transfers s n u) (p : Nat) (v : Word) : Transfers s (n + 1) (u.record (.read p v))
  | write {n : Nat} {u : State} (hu : Transfers s n u) {p : Nat} (v : Word) (present : wordPresent s.config p = true)
      (noText : wordInText s.config p = false) :
      Transfers s (n + 1) ((u.setMem (u.mem.writeWord p v)).record (.write p v))

section
variable {s u t : State} {n k : Nat}

theorem Transfers.memoryOnly (h : Transfers s n u) : MemoryOnly s u := by
  induction h with
  | start => exact MemoryOnly.refl s
  | turn _ ih => exact ih.trans (ioTurn_memoryOnly _)
  | read _ p v ih => exact ih.trans (record_memoryOnly _ _)
  | write _ v _ _ ih => exact (ih.trans (setMem_memoryOnly _ _)).trans (record_memoryOnly _ _)

theorem Transfers.betweenTransfers (h : Transfers s n u) (k : Nat) : Transfers s n (betweenTransfers k u) := by
  cases k
  · exact h
  · exact h.turn

theorem Transfers.memRead (h : Transfers s n u) {addr v : Word} (hr : memRead u addr = .ok (v, t)) :
    Transfers s (n + 1) t := by
  obtain ⟨p, -, -, rfl⟩ := memRead_ok.1 hr
  exact h.read p v

theorem Transfers.memWrite (h : Transfers s n u) {addr v : Word} (hw : memWrite u addr v = .ok t) :
    Transfers s (n + 1) t := by
  obtain ⟨p, hp, noText, rfl⟩ := memWrite_ok.1 hw
  obtain ⟨-, -, present⟩ := physical_ok.1 hp
  rw [h.memoryOnly.config] at present noText
  exact h.write v present noText

theorem Transfers.readBlock (h : Transfers s n u) {e : Word} {ws : Vector Word k} (hr : readBlock k e u = .ok (ws, t)) :
    Transfers s (n + k) t := by
  induction k generalizing t with
  | zero => cases hr; exact h
  | succ k ih =>
    obtain ⟨ws', t', w, block, word, -⟩ := readBlock_succ_ok.1 hr
    exact ((ih block).betweenTransfers k).memRead word

theorem Transfers.writeBlock (h : Transfers s n u) {e : Word} {ws : Vector Word k} (hw : writeBlock k ws e u = .ok t) :
    Transfers s (n + k) t := by
  induction k generalizing t with
  | zero => cases hw; exact h
  | succ k ih =>
    obtain ⟨t', block, word⟩ := writeBlock_succ_ok.1 hw
    exact ((ih block).betweenTransfers k).memWrite word

/-- A block instruction comes to its block by at most one transfer, that of the pointer. -/
theorem Transfers.of_blockStart {i : Instr} {e : Word} (h : blockStart i s = .ok (e, u)) :
    ∃ n ≤ 1, Transfers s n u := by
  unfold blockStart at h
  split at h
  · obtain ⟨⟨e', t⟩, pointer, h⟩ := bind_ok.1 h
    cases h
    exact ⟨1, le_rfl, (Transfers.start.memRead pointer).turn⟩
  · cases h
    exact ⟨0, Nat.zero_le 1, .start⟩

/-- The history has grown by `n` events, of which none delivers a control word. -/
def HistoryGrows (s : State) (n : Nat) (u : State) : Prop :=
  ∃ l, u.events = s.events ++ l ∧ l.length = n ∧ ∀ ev ∈ l, ev.isExtWrite = false

theorem HistoryGrows.record (h : HistoryGrows s n u) {ev : Event} (hev : ev.isExtWrite = false) :
    HistoryGrows s (n + 1) (u.record ev) := by
  obtain ⟨l, events, length, noExtWrite⟩ := h
  refine ⟨l ++ [ev], by simp [events], by simp [length], fun ev' hev' => ?_⟩
  rcases List.mem_append.1 hev' with old | new
  · exact noExtWrite ev' old
  · rwa [List.mem_singleton.1 new]

/-- The history grows by one event for each word (R53, R54). -/
theorem Transfers.historyGrows (h : Transfers s n u) : HistoryGrows s n u := by
  induction h with
  | start => exact ⟨[], by simp⟩
  | turn _ ih =>
    obtain ⟨l, events, rest⟩ := ih
    exact ⟨l, (ioTurn_events _).trans events, rest⟩
  | read _ p v ih => exact ih.record rfl
  | @write _ u' _ p v _ _ ih => exact HistoryGrows.record (u := u'.setMem (u'.mem.writeWord p v)) ih rfl

/-- Memory is in canonical form and lists characters only where there is memory (R59). -/
structure MemoryInv (s : State) : Prop where
  wf : Memory.wf s.mem
  present : ∀ c ∈ s.mem, inSpans s.config.memPresent c.1 = true

theorem MemoryInv.ioTurn (h : MemoryInv s) : MemoryInv (ioTurn s) where
  wf := ioTurn_wf h.wf
  present := by
    rw [(ioTurn_memoryOnly s).config]
    exact ioTurn_present h.present

theorem MemoryInv.of_eq (h : MemoryInv u) (hm : t.mem = u.mem) (hc : t.config = u.config) : MemoryInv t where
  wf := hm ▸ h.wf
  present := by rw [hm, hc]; exact h.present

/-- A word written where both its characters are present keeps the invariant of memory. -/
theorem MemoryInv.writeWord (h : MemoryInv s) {p : Nat} (v : Word) (hp : wordPresent s.config p = true) :
    MemoryInv (s.setMem (s.mem.writeWord p v)) where
  wf := Memory.writeWord_wf h.wf p v
  present := by
    obtain ⟨left, right⟩ := (Bool.and_eq_true _ _).mp hp
    intro c hc
    rcases Memory.mem_writeByte hc with rfl | hc
    · exact right
    rcases Memory.mem_writeByte hc with rfl | hc
    · exact left
    · exact h.present c hc

theorem Transfers.memoryInv (h : Transfers s n u) (hs : MemoryInv s) : MemoryInv u := by
  induction h with
  | start => exact hs
  | turn _ ih => exact ih.ioTurn
  | read _ p v ih => exact ih.of_eq rfl rfl
  | write hu v present _ ih =>
    rw [← hu.memoryOnly.config] at present
    exact (ih.writeWord v present).of_eq rfl rfl

end

/-! ## Completed instructions -/

/-- Everything an instruction can have done when it answers a next state. -/
inductive Completed (s : State) : Instr → State → Prop where
  | wer (r3 : RegNum) (a : ExtAddr) : Completed s (.wer r3 a) ((extWrite s a (s.reg r3)).advance 2#16)
  | rer (r3 : RegNum) (a : ExtAddr) (v : Word) :
      Completed s (.rer r3 a) (((((s.record (.extRead a v)).countDraw).setReg r3 v).setCr (crOfExternal v)).advance 2#16)
  | loadTr {i : Instr} {n : Nat} {u : State} (hi : writesTr i = true) (hn : n ≤ 17) (hu : Transfers s n u)
      (ws : Vector Word 16) : Completed s i ((u.setTr ws).advance (BitVec.ofNat 16 i.length))
  | loadFpa {i : Instr} {n : Nat} {u : State} (hi : writesFpa i = true) (hn : n ≤ 17) (hu : Transfers s n u)
      (ws : Vector Word 3) : Completed s i ((acceptOperand ws u).advance (BitVec.ofNat 16 i.length))
  | store {i : Instr} {n : Nat} {u : State} (hi : storesMemory i = true) (hn : n ≤ 17) (hu : Transfers s n u) :
      Completed s i (u.advance (BitVec.ofNat 16 i.length))

/-- A block instruction that loads nothing stores. -/
theorem storesMemory_of_movesBlock {i : Instr} (hb : movesBlock i = true) (htr : writesTr i = false)
    (hfpa : writesFpa i = false) : storesMemory i = true := by
  cases i with
  | wer | rer => cases hb
  | tlr | tl | tlInd => cases htr
  | fldr | fld | fldInd => cases hfpa
  | tsr | ts | tsInd | fstr | fst | fstInd => rfl

theorem Completed.of_blockTransfer {i : Instr} (hb : movesBlock i = true) {s u t : State} {n : Nat} {e : Word} (hn : n ≤ 1)
    (hu : Transfers s n u) (h : blockTransfer i e u = .ok t) : Completed s i t := by
  unfold blockTransfer at h
  split_ifs at h with htr hfpa
  · obtain ⟨-, ws, v, block, rfl⟩ := loadSegmentTable_ok.1 h
    exact .loadTr htr (by omega) (hu.readBlock block) ws
  · obtain ⟨-, ws, v, block, rfl⟩ := loadAccumulators_ok.1 h
    exact .loadFpa hfpa (by omega) (hu.readBlock block) ws
  all_goals have stores := storesMemory_of_movesBlock hb (by simpa using htr) (by simpa using hfpa)
  · obtain ⟨-, v, block, rfl⟩ := storeSegmentTable_ok.1 h
    exact .store stores (by omega) (hu.writeBlock block)
  · obtain ⟨-, v, block, rfl⟩ := storeAccumulators_ok.1 h
    exact .store stores (by omega) (hu.writeBlock block)

theorem exec_completed {i : Instr} {s t : State} (h : exec i s = .next t) : Completed s i t := by
  by_cases hb : movesBlock i = true
  · obtain ⟨e, u, start, transfer⟩ := exec_next_of_movesBlock hb h
    obtain ⟨n, hn, hu⟩ := Transfers.of_blockStart start
    exact .of_blockTransfer hb hn hu transfer
  · cases i with
    | wer r3 a =>
      obtain ⟨-, -, -, -, -, rfl⟩ := execWer_next.1 h
      exact .wer r3 a
    | rer r3 a =>
      obtain ⟨-, -, -, rfl⟩ := execRer_next.1 h
      exact .rer r3 a _
    | _ => exact absurd rfl hb

/-- A step that goes on has completed an instruction and then given the I/O Processors their turn. -/
theorem step_completed {s t : State} (h : step s = .next t) : ∃ i u, Completed s i u ∧ t = ioTurn u := by
  obtain ⟨i, u, -, completes, rfl⟩ := step_next.1 h
  exact ⟨i, u, exec_completed completes, rfl⟩

end Sys2Proof.Machine
end

section
/-! PROOF. The frames of a completed instruction and of a step: the invariant, the history, the mode and the configuration, the
registers, the program counter. -/

namespace Sys2Proof.Machine

/-! ## The program counter -/

theorem length_eq_two_or_four (i : Instr) : i.length = 2 ∨ i.length = 4 := by
  unfold Instr.length
  split_ifs
  · exact .inr rfl
  · exact .inl rfl

/-- Adding an even number keeps an address even. -/
theorem isEven_add {a b : Word} (hb : isEven b = true) : isEven (a + b) = isEven a := by
  simp only [isEven, Bool.not_eq_true'] at hb ⊢
  rw [BitVec.getLsbD_add (by decide), hb]
  simp [BitVec.carry_zero]

theorem Completed.pc {s t : State} {i : Instr} (h : Completed s i t) : t.pc = s.pc + BitVec.ofNat 16 i.length := by
  cases h with
  | wer | rer => rfl
  | loadTr _ _ hu | store _ _ hu => exact congrArg (· + _) hu.memoryOnly.pc
  | loadFpa _ _ hu ws => rw [State.advance_pc, acceptOperand_pc, hu.memoryOnly.pc]

theorem Completed.isEven_pc {s t : State} {i : Instr} (h : Completed s i t) : isEven t.pc = isEven s.pc := by
  rw [h.pc]
  rcases length_eq_two_or_four i with length | length
  all_goals
    rw [length]
    exact isEven_add (by decide)

/-! ## Mode, configuration and memory -/

theorem Completed.mode {s t : State} {i : Instr} (h : Completed s i t) : t.mode = s.mode := by
  cases h with
  | wer | rer => rfl
  | loadTr _ _ hu | store _ _ hu => exact hu.memoryOnly.mode
  | loadFpa _ _ hu ws => exact (acceptOperand_mode ws _).trans hu.memoryOnly.mode

theorem Completed.config {s t : State} {i : Instr} (h : Completed s i t) : t.config = s.config := by
  cases h with
  | wer | rer => rfl
  | loadTr _ _ hu | store _ _ hu => exact hu.memoryOnly.config
  | loadFpa _ _ hu ws => exact (acceptOperand_config ws _).trans hu.memoryOnly.config

theorem Completed.memoryInv {s t : State} {i : Instr} (h : Completed s i t) (hs : MemoryInv s) : MemoryInv t := by
  cases h with
  | wer | rer => exact hs.of_eq rfl rfl
  | loadTr _ _ hu | store _ _ hu => exact (hu.memoryInv hs).of_eq rfl rfl
  | loadFpa _ _ hu ws => exact (hu.memoryInv hs).of_eq (acceptOperand_mem ws _) (acceptOperand_config ws _)

/-- Settles O43: the word transfers, the turns between them and the turn after the instruction each keep the invariant of memory;
an instruction is two or four characters long. -/
theorem stepKeepsTheInvariant : Obligations.StepKeepsTheInvariant := by
  intro s t inv h
  obtain ⟨i, u, completed, rfl⟩ := step_completed h
  have mem : MemoryInv (ioTurn u) := (completed.memoryInv ⟨inv.wf, inv.present⟩).ioTurn
  have even : isEven (ioTurn u).pc = true := by rw [(ioTurn_memoryOnly u).pc, completed.isEven_pc, inv.even]
  exact ⟨mem.wf, mem.present, even⟩

/-- Settles O45: neither the instruction nor the turn after it writes them. -/
theorem modeAndConfigurationNeverChange : Obligations.ModeAndConfigurationNeverChange := by
  intro s t h
  obtain ⟨i, u, completed, rfl⟩ := step_completed h
  have turn := ioTurn_memoryOnly u
  exact ⟨turn.mode.trans completed.mode, turn.config.trans completed.config⟩

/-! ## The event history -/

/-- An instruction records at most seventeen events, and none but WER the delivery of a control word. -/
theorem Completed.events {s t : State} {i : Instr} (h : Completed s i t) :
    ∃ l, t.events = s.events ++ l ∧ l.length ≤ 17 ∧ ((∀ r3 a, i ≠ .wer r3 a) → ∀ ev ∈ l, ev.isExtWrite = false) := by
  cases h with
  | wer r3 a => exact ⟨[.extWrite a (s.reg r3)], rfl, by simp, fun hi => absurd rfl (hi r3 a)⟩
  | rer r3 a v => exact ⟨[.extRead a v], rfl, by simp, fun _ => by simp [Event.isExtWrite]⟩
  | loadTr _ hn hu | store _ hn hu =>
    obtain ⟨l, events, length, noExtWrite⟩ := hu.historyGrows
    exact ⟨l, events, length.trans_le hn, fun _ => noExtWrite⟩
  | loadFpa _ hn hu ws =>
    obtain ⟨l, events, length, noExtWrite⟩ := hu.historyGrows
    exact ⟨l, (acceptOperand_events ws _).trans events, length.trans_le hn, fun _ => noExtWrite⟩

/-- Settles O46: the pointer and sixteen words at most, and a turn records none. -/
theorem historyOnlyGrows : Obligations.HistoryOnlyGrows := by
  intro s t h
  obtain ⟨i, u, completed, rfl⟩ := step_completed h
  obtain ⟨l, events, length, -⟩ := completed.events
  exact ⟨l, (ioTurn_events u).trans events, length⟩

/-- Events that deliver nothing leave whether a control word has been delivered. -/
theorem controlWordSent_append {s t : State} {l : List Event} (h : t.events = s.events ++ l)
    (hl : ∀ ev ∈ l, ev.isExtWrite = false) : t.controlWordSent = s.controlWordSent := by
  have none : l.any Event.isExtWrite = false := by simpa using hl
  rw [State.controlWordSent, h, List.any_append, none, Bool.or_false]
  rfl

/-- Events that deliver nothing leave the control words last delivered. -/
theorem controlWord_append {s t : State} {l : List Event} (h : t.events = s.events ++ l)
    (hl : ∀ ev ∈ l, ev.isExtWrite = false) (p d : Nat) (second : Bool) :
    t.controlWord p d second = s.controlWord p d second := by
  unfold State.controlWord
  rw [h, List.reverse_append, List.findSome?_append, List.findSome?_eq_none_iff.2, Option.none_or]
  intro ev hev
  have noExtWrite := hl ev (List.mem_reverse.1 hev)
  cases ev with
  | extWrite => cases noExtWrite
  | read | write | extRead => rfl

/-- Settles O17: the events of the other instructions deliver nothing. -/
theorem onlyWerDeliversControlWords : Obligations.OnlyWerDeliversControlWords := by
  intro i s t hi h
  obtain ⟨l, events, -, noExtWrite⟩ := (exec_completed h).events
  exact ⟨controlWord_append events (noExtWrite hi), controlWordSent_append events (noExtWrite hi)⟩

/-! ## Registers -/

theorem Completed.tr {s t : State} {i : Instr} (h : Completed s i t) (hi : writesTr i = false) : t.tr = s.tr := by
  cases h with
  | wer | rer => rfl
  | loadTr writes => rw [hi] at writes; cases writes
  | loadFpa _ _ hu ws => exact (acceptOperand_tr ws _).trans hu.memoryOnly.tr
  | store _ _ hu => exact hu.memoryOnly.tr

theorem Completed.fpa {s t : State} {i : Instr} (h : Completed s i t) (hi : writesFpa i = false) : t.fpa = s.fpa := by
  cases h with
  | wer | rer => rfl
  | loadTr _ _ hu | store _ _ hu => exact hu.memoryOnly.fpa
  | loadFpa writes => rw [hi] at writes; cases writes

/-- Settles O37: by the frames of a completed instruction. -/
theorem unitRegistersFrame : Obligations.UnitRegistersFrame :=
  fun _ _ _ h => ⟨(exec_completed h).tr, (exec_completed h).fpa⟩

theorem writesCr_of_writesFpa {i : Instr} (h : writesFpa i = true) : writesCr i = true := by
  cases i with
  | fldr | fld | fldInd => rfl
  | _ => cases h

theorem Completed.cr {s t : State} {i : Instr} (h : Completed s i t) (hi : writesCr i = false) : t.cr = s.cr := by
  cases h with
  | wer => rfl
  | rer => cases hi
  | loadTr _ _ hu | store _ _ hu => exact hu.memoryOnly.cr
  | loadFpa writes => rw [writesCr_of_writesFpa writes] at hi; cases hi

theorem Completed.reg {s t : State} {i : Instr} (h : Completed s i t) {r : RegNum} (hr : registerWritten i ≠ some r) :
    t.reg r = s.reg r := by
  cases h with
  | wer => rfl
  | rer r3 a v => exact State.reg_setReg_other _ v fun same => hr (congrArg some same.symm)
  | loadTr _ _ hu | store _ _ hu => exact hu.memoryOnly.reg r
  | loadFpa _ _ hu ws =>
    have x := (acceptOperand_x ws _).trans hu.memoryOnly.x
    exact congrArg (·[r.val]) x

/-! ## The length of a step -/

/-- A first word of a two-word row at 0xFFFE is refused (R99). -/
theorem step_pcWrap {s : State} {p : Nat} {w : Word} (fetched : accessible s s.pc .fetch = some (p, w))
    (two : needsSecondWord s.config.encoding w = true) (hpc : s.pc = 0xFFFE#16) : step s = .refused .pcWrap := by
  have word : fetchWord s s.pc = .ok w := fetchWord_ok.2 ⟨p, accessible_eq_some.1 fetched⟩
  have bytes : fetchBytes s = .error (.refusal .pcWrap) := by
    rw [fetchBytes, word, ok_bind, if_pos two, require_neg (by simp [hpc]), error_bind]
  rw [step, fetchInstr, bytes]
  rfl

/-- Settles O38: by the length of a completed instruction, and the fetch at 0xFFFE. -/
theorem programCounterAdvances : Obligations.ProgramCounterAdvances := by
  refine ⟨fun i s t h => (exec_completed h).pc, fun r a m => ?_, fun s t h => ?_, fun s p w => step_pcWrap⟩
  · simp [Instr.length, Instr.op, Op.twoWords]
  · obtain ⟨i, u, completed, rfl⟩ := step_completed h
    rw [(ioTurn_memoryOnly u).pc, completed.pc]
    rcases length_eq_two_or_four i with length | length
    · exact .inl (by rw [length])
    · exact .inr (by rw [length])

end Sys2Proof.Machine
end

section
/-! PROOF. No instruction's outcome depends on CR, nor on a general register that it does not read (R22, R26): other values in them
go through every operation unobserved. -/

namespace Sys2Proof.Machine

/-- The state with other general registers and another CR. -/
def State.mapRegs (g : Vector Word 16 → Vector Word 16) (k : BitVec 2 → BitVec 2) (s : State) : State :=
  { s with x := g s.x, cr := k s.cr }

/-- Change the next state of an outcome. -/
def mapNext (f : State → State) : Host.Outcome State Fault Refusal → Host.Outcome State Fault Refusal
  | .next t => .next (f t)
  | .fault r => .fault r
  | .refused r => .refused r

theorem finish_map (f : State → State) (r : Result State) : finish (f <$> r) = mapNext f (finish r) := by
  rcases r with (_ | _) | _ <;> rfl

/-- Change the state that stands beside the value an operation answers. -/
def mapState {α : Type} (f : State → State) (a : α × State) : α × State := (a.1, f a.2)

section
variable (g : Vector Word 16 → Vector Word 16) (k : BitVec 2 → BitVec 2)

/-! ## The operations do not observe the general registers and CR -/

theorem ioApply_mapRegs (s : State) (m : Memory) (l : List (Nat × Byte)) : ioApply (s.mapRegs g k) m l = ioApply s m l := by
  induction l generalizing m with
  | nil => rfl
  | cons c rest ih => exact ih _

theorem ioTurn_mapRegs (s : State) : ioTurn (s.mapRegs g k) = (ioTurn s).mapRegs g k := by
  unfold ioTurn
  rw [ioApply_mapRegs, apply_ite (State.mapRegs g k)]
  rfl

theorem betweenTransfers_mapRegs (n : Nat) (s : State) :
    betweenTransfers n (s.mapRegs g k) = (betweenTransfers n s).mapRegs g k := by
  cases n
  · rfl
  · exact ioTurn_mapRegs g k s

theorem memRead_mapRegs (s : State) (addr : Word) :
    memRead (s.mapRegs g k) addr = mapState (State.mapRegs g k) <$> memRead s addr := by
  simp only [memRead, map_bind]
  rfl

theorem memWrite_mapRegs (s : State) (addr v : Word) :
    memWrite (s.mapRegs g k) addr v = State.mapRegs g k <$> memWrite s addr v := by
  simp only [memWrite, map_bind]
  rfl

theorem readBlock_mapRegs (n : Nat) (e : Word) (s : State) :
    readBlock n e (s.mapRegs g k) = mapState (State.mapRegs g k) <$> readBlock n e s := by
  induction n with
  | zero => rfl
  | succ n ih =>
    simp only [readBlock, ih, map_bind, bind_map_left, mapState, betweenTransfers_mapRegs, memRead_mapRegs]
    rfl

theorem writeBlock_mapRegs (n : Nat) (ws : Vector Word n) (e : Word) (s : State) :
    writeBlock n ws e (s.mapRegs g k) = State.mapRegs g k <$> writeBlock n ws e s := by
  induction n with
  | zero => rfl
  | succ n ih =>
    simp only [writeBlock, ih, map_bind, bind_map_left, betweenTransfers_mapRegs, memWrite_mapRegs]

/-- Accepting an operand overwrites CR. -/
theorem acceptOperand_mapRegs (ws : Vector Word 3) (s : State) :
    acceptOperand ws (s.mapRegs g k) = (acceptOperand ws s).mapRegs g id := by
  unfold acceptOperand
  rw [show fpClass (s.mapRegs g k).config ws = fpClass s.config ws from rfl]
  cases fpClass s.config ws <;> rfl

/-! ## Instructions -/

theorem loadSegmentTable_mapRegs (e len : Word) (s : State) :
    loadSegmentTable e len (s.mapRegs g k) = State.mapRegs g k <$> loadSegmentTable e len s := by
  simp only [loadSegmentTable, readBlock_mapRegs, map_bind, bind_map_left]
  rfl

theorem storeSegmentTable_mapRegs (e len : Word) (s : State) :
    storeSegmentTable e len (s.mapRegs g k) = State.mapRegs g k <$> storeSegmentTable e len s := by
  simp only [storeSegmentTable, writeBlock_mapRegs, map_bind, bind_map_left]
  rfl

theorem loadAccumulators_mapRegs (e len : Word) (s : State) :
    loadAccumulators e len (s.mapRegs g k) = State.mapRegs g id <$> loadAccumulators e len s := by
  simp only [loadAccumulators, readBlock_mapRegs, map_bind, bind_map_left, mapState, acceptOperand_mapRegs]
  rfl

theorem storeAccumulators_mapRegs (e len : Word) (s : State) :
    storeAccumulators e len (s.mapRegs g k) = State.mapRegs g k <$> storeAccumulators e len s := by
  simp only [storeAccumulators, writeBlock_mapRegs, map_bind, bind_map_left]
  rfl

/-- The change of CR that outlives the instruction: none if the instruction writes CR. -/
def keptCr (i : Instr) (k : BitVec 2 → BitVec 2) : BitVec 2 → BitVec 2 := if writesCr i then id else k

theorem blockTransfer_mapRegs {i : Instr} (hb : movesBlock i = true) (e : Word) (s : State) :
    blockTransfer i e (s.mapRegs g k) = State.mapRegs g (keptCr i k) <$> blockTransfer i e s := by
  cases i with
  | wer | rer => cases hb
  | tlr | tl | tlInd => exact loadSegmentTable_mapRegs g k e _ s
  | tsr | ts | tsInd => exact storeSegmentTable_mapRegs g k e _ s
  | fldr | fld | fldInd => exact loadAccumulators_mapRegs g k e _ s
  | fstr | fst | fstInd => exact storeAccumulators_mapRegs g k e _ s

variable {g}

theorem execWer_mapRegs {s : State} {r3 : RegNum} (hreg : (s.mapRegs g k).reg r3 = s.reg r3) (a : ExtAddr) :
    execWer r3 a (s.mapRegs g k) = mapNext (State.mapRegs g k) (execWer r3 a s) := by
  simp only [execWer, hreg, ← finish_map, map_bind]
  rfl

/-- The address of a two-word form depends on no general register but its index. -/
theorem eaDirect_congr {s t : State} {r2 : RegNum} (m : Word)
    (index : ∀ q, (if r2 = 0 then none else some r2) = some q → t.reg q = s.reg q) : eaDirect t r2 m = eaDirect s r2 m := by
  unfold eaDirect
  split_ifs with h
  · rfl
  · rw [index r2 (if_neg h)]

variable {i : Instr} {s : State} (hread : ∀ q, registerRead i = some q → (s.mapRegs g k).reg q = s.reg q)
include hread

theorem blockAddress_mapRegs : blockAddress (s.mapRegs g k) i = blockAddress s i := by
  cases i with
  | tlr r2 | tsr r2 | fldr r2 | fstr r2 => exact congrArg some (hread r2 rfl)
  | tl r2 m | ts r2 m | fld r2 m | fst r2 m => exact congrArg some (eaDirect_congr m hread)
  | wer | rer | tlInd | tsInd | fldInd | fstInd => rfl

theorem pointerAddress_mapRegs : pointerAddress (s.mapRegs g k) i = pointerAddress s i := by
  cases i with
  | tlInd r2 m | tsInd r2 m | fldInd r2 m | fstInd r2 m => exact congrArg some (eaDirect_congr m hread)
  | _ => rfl

theorem blockStart_mapRegs : blockStart i (s.mapRegs g k) = mapState (State.mapRegs g k) <$> blockStart i s := by
  unfold blockStart
  rw [pointerAddress_mapRegs k hread, blockAddress_mapRegs k hread]
  cases pointerAddress s i with
  | none => rfl
  | some a =>
    simp only [memRead_mapRegs, map_bind, bind_map_left, mapState, ioTurn_mapRegs]
    rfl

theorem exec_mapRegs_of_movesBlock (hb : movesBlock i = true) :
    exec i (s.mapRegs g k) = mapNext (State.mapRegs g (keptCr i k)) (exec i s) := by
  rw [exec_of_movesBlock hb, exec_of_movesBlock hb, ← finish_map]
  simp only [blockStart_mapRegs k hread, map_bind, bind_map_left, mapState, blockTransfer_mapRegs g k hb]
  rfl

/-- An instruction that writes no general register hands on what it does not read. -/
theorem exec_mapRegs (hw : registerWritten i = none) :
    exec i (s.mapRegs g k) = mapNext (State.mapRegs g (keptCr i k)) (exec i s) := by
  cases i with
  | wer r3 a => exact execWer_mapRegs k (hread r3 rfl) a
  | rer => cases hw
  | _ => exact exec_mapRegs_of_movesBlock k hread rfl

end

/-- RER overwrites CR and r3: a change of the other general registers outlives it. -/
theorem execRer_mapRegs {g h : Vector Word 16 → Vector Word 16} (k : BitVec 2 → BitVec 2) {r3 : RegNum}
    (hwrite : ∀ x v, (g x).set r3.val v = h (x.set r3.val v)) (a : ExtAddr) (s : State) :
    execRer r3 a (s.mapRegs g k) = mapNext (State.mapRegs h id) (execRer r3 a s) := by
  have loaded (ev : Event) (v : Word) (c : BitVec 2) :
      (((((s.mapRegs g k).record ev).countDraw.setReg r3 v).setCr c).advance 2#16) =
        ((((s.record ev).countDraw.setReg r3 v).setCr c).advance 2#16).mapRegs h id :=
    congrArg (fun x => { ((((s.record ev).countDraw.setReg r3 v).setCr c).advance 2#16) with x := x }) (hwrite s.x v)
  simp only [execRer, ← finish_map, map_bind]
  exact congrArg finish (bind_congr fun _ => bind_congr fun _ => bind_congr fun _ => congrArg Except.ok (loaded _ _ _))

theorem eq_rer_of_registerWritten {i : Instr} {r3 : RegNum} (h : registerWritten i = some r3) : ∃ a, i = .rer r3 a := by
  cases i with
  | rer r a => cases h; exact ⟨a, rfl⟩
  | _ => cases h

/-- Another value in a register that an instruction does not read stays there, unless the instruction overwrites it. -/
theorem exec_setReg {i : Instr} {r : RegNum} (hr : registerRead i ≠ some r) (s : State) (v : Word) :
    exec i (s.setReg r v) = mapNext (fun t => if registerWritten i = some r then t else t.setReg r v) (exec i s) := by
  cases hw : registerWritten i with
  | none =>
    have hread : ∀ q, registerRead i = some q → (s.setReg r v).reg q = s.reg q := fun q hq =>
      State.reg_setReg_other s v fun same => hr (same ▸ hq)
    have frame := exec_mapRegs (g := (·.set r.val v)) id hread hw
    rw [keptCr, ite_self] at frame
    simp only [reduceCtorEq, if_false]
    exact frame
  | some r3 =>
    obtain ⟨a, rfl⟩ := eq_rer_of_registerWritten hw
    by_cases same : r3 = r
    · subst same
      simp only [if_true]
      exact execRer_mapRegs (g := (·.set r3.val v)) (h := id) id (fun x w => Vector.set_set ..) a s
    · have distinct : r.val ≠ r3.val := fun e => same (Fin.ext e.symm)
      simp only [Option.some.injEq, same, if_false]
      exact execRer_mapRegs (g := (·.set r.val v)) (h := (·.set r.val v)) id (fun x w => Vector.set_comm _ _ distinct) a s

/-- Another value in CR stays there, unless the instruction writes CR. -/
theorem exec_setCr (i : Instr) (s : State) (v : BitVec 2) :
    exec i (s.setCr v) = mapNext (fun t => if writesCr i then t else t.setCr v) (exec i s) := by
  have unread : ∀ q, registerRead i = some q → (s.setCr v).reg q = s.reg q := fun _ _ => rfl
  cases hw : registerWritten i with
  | none =>
    rw [show s.setCr v = s.mapRegs id (fun _ => v) from rfl, exec_mapRegs _ unread hw]
    unfold keptCr
    split_ifs <;> rfl
  | some r3 =>
    obtain ⟨a, rfl⟩ := eq_rer_of_registerWritten hw
    exact execRer_mapRegs (fun _ => v) (g := id) (h := id) (fun _ _ => rfl) a s

/-- Settles O35, from the frame of a completed instruction and the passage of other register values through `exec`. -/
theorem generalRegistersReadAndWritten : Obligations.GeneralRegistersReadAndWritten := by
  intro i s
  refine ⟨fun t h r hr => (exec_completed h).reg hr, fun r v hr => ?_⟩
  rw [exec_setReg hr]
  cases exec i s <;> rfl

/-- After RER, CR is bits 6 and 7 of the register it loaded (R112). -/
theorem exec_rer_cr {r3 : RegNum} {a : ExtAddr} {s t : State} (h : exec (.rer r3 a) s = .next t) :
    t.cr = (t.reg r3).extractLsb' 8 2 := by
  obtain ⟨-, -, -, rfl⟩ := execRer_next.1 h
  simp [crOfExternal]

/-- Settles O36, likewise; after RER by what RER does. -/
theorem conditionRegisterFrame : Obligations.ConditionRegisterFrame := by
  intro i s
  refine ⟨fun t h => (exec_completed h).cr, fun t r3 a => exec_rer_cr, fun v => ?_⟩
  rw [exec_setCr]
  cases exec i s <;> rfl

end Sys2Proof.Machine
end

section
/-! SUPPORT. Where a word access stops, and what a block instruction that passes its checks does: its transfers complete while
each word can be moved, whatever the I/O Processors write beside them, and the first word that cannot be stored stops it. -/

namespace Sys2Proof.Machine

/-! ## Word accesses -/

section
variable {s : State} {addr : Word} {kind : AccessKind} {p : Nat} {stop : Stop}

theorem physical_odd (odd : isEven addr = false) : physical s addr kind = .error (.refusal .oddAddress) := by
  rw [physical, require_neg odd, error_bind]

theorem physical_untranslated (even : isEven addr = true) (fault : translate s.config s.tr s.mode addr kind = none) :
    physical s addr kind = .error (.fault (.addressFault addr)) := by
  rw [physical, require_pos even, ok_bind, fault]
  rfl

theorem physical_absent (even : isEven addr = true) (answer : translate s.config s.tr s.mode addr kind = some p)
    (absent : wordPresent s.config p = false) : physical s addr kind = .error (.refusal .noMemory) := by
  rw [physical, require_pos even, ok_bind, answer]
  show (require _ _ >>= fun _ => Except.ok p) = _
  rw [require_neg absent, error_bind]

theorem readPhysical_unwritten (unwritten : s.mem.readWord p = none) :
    readPhysical s p = .error (.fault (.unwrittenMemory p)) := by
  rw [readPhysical, unwritten]
  rfl

theorem memRead_of_physical_error (h : physical s addr .read = .error stop) : memRead s addr = .error stop := by
  rw [memRead, h, error_bind]

/-- A store into the program text is refused (R64). -/
theorem memWrite_inText (h : physical s addr .write = .ok p) (text : wordInText s.config p = true) (v : Word) :
    memWrite s addr v = .error (.refusal .storeIntoCode) := by
  rw [memWrite, h, ok_bind, text, Bool.not_true, require_false, error_bind]

theorem fetchWord_of_physical_error (h : physical s addr .fetch = .error stop) : fetchWord s addr = .error stop := by
  rw [fetchWord, h, error_bind]

/-- A step whose first word cannot be fetched stops as the fetch does. -/
theorem step_of_fetchWord_error (h : fetchWord s s.pc = .error stop) : step s = stop.outcome := by
  rw [step, fetchInstr, fetchBytes, h]
  rfl

theorem step_of_physical_error (h : physical s s.pc .fetch = .error stop) : step s = stop.outcome :=
  step_of_fetchWord_error (fetchWord_of_physical_error h)

/-- An odd pc is refused (R52). -/
theorem step_odd (odd : isEven s.pc = false) : step s = .refused .oddAddress :=
  step_of_physical_error (physical_odd odd)

end

/-! ## Memory through the transfers of an instruction -/

section
variable {s u t : State} {n : Nat} {a : Nat}

/-- An I/O Processor passes over absent memory, the program text and what lies outside the footprint (R59, R64, R66). -/
theorem ioMayWrite_eq_false : ioMayWrite s a = false ↔ inSpans s.config.memPresent a = false ∨
    inSpans s.config.programText a = true ∨ inFootprint s.config s.events a = false := by
  simp only [ioMayWrite, Bool.and_eq_false_iff, Bool.not_eq_false', or_assoc]

theorem ioTurn_readByte_text (text : inSpans s.config.programText a = true) :
    (ioTurn s).mem.readByte a = s.mem.readByte a :=
  ioTurn_readByte (ioMayWrite_eq_false.2 (.inr (.inl text)))

/-- A word apart from the program text shares no character with it. -/
theorem outsideWord_of_text {p : Nat} (text : inSpans s.config.programText a = true)
    (noText : wordInText s.config p = false) : outsideWord a p := by
  obtain ⟨left, right⟩ := (Bool.or_eq_false_iff ..).mp noText
  constructor
  · rintro rfl
    exact Bool.noConfusion (left.symm.trans text)
  · rintro rfl
    exact Bool.noConfusion (right.symm.trans text)

/-- Neither a store nor a turn changes a character of the program text (R64). -/
theorem Transfers.readByte_text (h : Transfers s n u) (text : inSpans s.config.programText a = true) :
    u.mem.readByte a = s.mem.readByte a := by
  induction h with
  | start => rfl
  | turn hu ih => rw [ioTurn_readByte_text (hu.memoryOnly.config ▸ text), ih]
  | read _ p v ih => exact ih
  | @write _ u' _ p v _ noText ih =>
    obtain ⟨notLeft, notRight⟩ := outsideWord_of_text text noText
    show (u'.mem.writeWord p v).readByte a = _
    rw [Memory.readByte_writeWord, if_neg notRight, if_neg notLeft, ih]

theorem Memory.isSome_readByte_writeWord {m : Memory} (h : (m.readByte a).isSome = true) (p : Nat) (v : Word) :
    ((m.writeWord p v).readByte a).isSome = true := by
  rw [Memory.readByte_writeWord]
  split_ifs
  · rfl
  · rfl
  · exact h

/-- Neither a store nor a turn takes the value of a character away. -/
theorem Transfers.isSome (h : Transfers s n u) (written : (s.mem.readByte a).isSome = true) :
    (u.mem.readByte a).isSome = true := by
  induction h with
  | start => exact written
  | turn _ ih => exact ioTurn_isSome ih
  | read _ p v ih => exact ih
  | write _ v _ _ ih => exact Memory.isSome_readByte_writeWord ih _ v

/-- The memory of a completed instruction is that of its last transfer. -/
theorem Completed.mem {i : Instr} (h : Completed s i t) : ∃ n u, Transfers s n u ∧ t.mem = u.mem := by
  cases h with
  | wer | rer => exact ⟨0, s, .start, rfl⟩
  | loadTr _ _ hu | store _ _ hu => exact ⟨_, _, hu, rfl⟩
  | loadFpa _ _ hu ws => exact ⟨_, _, hu, acceptOperand_mem ws _⟩

end

/-! ## Blocks whose words can all be moved, and the first that cannot be stored -/

section
variable {s u : State} {n k : Nat} {e : Word}

/-- A word that could be read when the instruction began can be read after any of its transfers (log 11). -/
theorem Transfers.memRead_completes (h : Transfers s n u) {addr : Word} (readable : (accessible s addr .read).isSome = true) :
    ∃ v t, Machine.memRead u addr = .ok (v, t) := by
  obtain ⟨⟨p, w⟩, found⟩ := Option.isSome_iff_exists.1 readable
  obtain ⟨phys, word⟩ := accessible_eq_some.1 found
  obtain ⟨left, right⟩ := Memory.readWord_isSome.1 (Option.isSome_of_eq_some word)
  obtain ⟨v, hv⟩ := Option.isSome_iff_exists.1 (Memory.readWord_isSome.2 ⟨h.isSome left, h.isSome right⟩)
  exact ⟨v, _, memRead_ok.2 ⟨p, by rw [h.memoryOnly.physical, phys], hv, rfl⟩⟩

theorem Transfers.memWrite_completes (h : Transfers s n u) {addr : Word} (canStore : (storable s addr).isSome = true)
    (v : Word) : ∃ t, Machine.memWrite u addr v = .ok t := by
  obtain ⟨p, found⟩ := Option.isSome_iff_exists.1 canStore
  rw [← storable_congr h.memoryOnly] at found
  obtain ⟨phys, noText⟩ := storable_eq_some.1 found
  exact ⟨_, memWrite_ok.2 ⟨p, phys, noText, rfl⟩⟩

theorem Transfers.readBlock_completes (h : Transfers s n u)
    (readable : ∀ j < k, (accessible s (blockAddr e j) .read).isSome = true) :
    ∃ ws t, Machine.readBlock k e u = .ok (ws, t) := by
  induction k with
  | zero => exact ⟨_, u, rfl⟩
  | succ k ih =>
    obtain ⟨ws, t, block⟩ := ih fun j hj => readable j (by omega)
    obtain ⟨w, t', word⟩ := ((h.readBlock block).betweenTransfers k).memRead_completes (readable k (by omega))
    exact ⟨_, t', readBlock_succ_ok.2 ⟨ws, t, w, block, word, rfl⟩⟩

theorem Transfers.writeBlock_completes (h : Transfers s n u)
    (canStore : ∀ j < k, (storable s (blockAddr e j)).isSome = true) (ws : Vector Word k) :
    ∃ t, Machine.writeBlock k ws e u = .ok t := by
  induction k with
  | zero => exact ⟨u, rfl⟩
  | succ k ih =>
    obtain ⟨t, block⟩ := ih (fun j hj => canStore j (by omega)) ws.pop
    obtain ⟨t', word⟩ :=
      ((h.writeBlock block).betweenTransfers k).memWrite_completes (canStore k (by omega)) ws.back
    exact ⟨t', writeBlock_succ_ok.2 ⟨t, block, word⟩⟩

/-- The store to the address stops for the same reason after any transfers of the instruction and with any word. -/
def StoreStops (s : State) (addr : Word) (stop : Stop) : Prop :=
  ∀ u v, MemoryOnly s u → memWrite u addr v = .error stop

theorem storeStops_inText {addr : Word} {p : Nat} (h : physical s addr .write = .ok p)
    (text : wordInText s.config p = true) : StoreStops s addr (.refusal .storeIntoCode) := fun _ v hu =>
  memWrite_inText (by rw [hu.physical, h]) (by rw [hu.config, text]) v

/-- The first word of a block that cannot be stored stops the block (R68). -/
theorem Transfers.writeBlock_stops (h : Transfers s n u) {stop : Stop} {len : Nat} (hk : k < len)
    (before : ∀ j < k, (storable s (blockAddr e j)).isSome = true) (bad : StoreStops s (blockAddr e k) stop)
    (ws : Vector Word len) : Machine.writeBlock len ws e u = .error stop := by
  induction len with
  | zero => omega
  | succ len ih =>
    rw [Machine.writeBlock]
    rcases Nat.lt_succ_iff_lt_or_eq.1 hk with earlier | rfl
    · rw [ih earlier, error_bind]
    · obtain ⟨t, block⟩ := h.writeBlock_completes before ws.pop
      rw [block, ok_bind, bad _ _ ((h.writeBlock block).betweenTransfers k).memoryOnly]

end

/-! ## Block instructions past their checks -/

section
variable {i : Instr} {s u : State} {n : Nat} {e a : Word}

theorem movesBlock_of_blockAddress (h : blockAddress s i = some e) : movesBlock i = true := by
  cases i with
  | wer | rer => cases h
  | _ => rfl

theorem movesBlock_of_pointerAddress (h : pointerAddress s i = some a) : movesBlock i = true := by
  cases i with
  | wer | rer => cases h
  | _ => rfl

theorem movesBlock_of_blockAt (h : BlockAt i s e) : movesBlock i = true := by
  rcases h with block | ⟨a, p, pointer, -⟩
  · exact movesBlock_of_blockAddress block
  · exact movesBlock_of_pointerAddress pointer

/-- An instruction whose block has an address of its own reads no pointer. -/
theorem pointerAddress_of_blockAddress (h : blockAddress s i = some e) : pointerAddress s i = none := by
  cases i with
  | tlInd | tsInd | fldInd | fstInd => cases h
  | _ => rfl

theorem blockChecks_of_ready (hb : movesBlock i = true) (ready : Ready i s) : blockChecks i s = .ok () := by
  unfold blockChecks
  rw [ready.register, Bool.not_false, require_true, ok_bind]
  split_ifs with mmu
  · obtain ⟨model, hasMmu, system⟩ := ready.mmu mmu
    exact segmentChecks_ok.2 ⟨by simp [mmuInstalled, model, hasMmu], system⟩
  · have ffp : usesFfp i = true := by simpa [movesBlock, mmu] using hb
    obtain ⟨model, hasFfp, admitted⟩ := ready.ffp ffp
    exact floatChecks_ok.2 ⟨by simp [ffpInstalled, model, hasFfp], admitted⟩

theorem exec_of_ready (hb : movesBlock i = true) (ready : Ready i s) :
    exec i s = finish (do
      let (e, t) ← blockStart i s
      blockTransfer i e t) := by
  rw [exec_of_movesBlock hb, blockChecks_of_ready hb ready, ok_bind]

/-- A pointer that cannot be read stops the instruction. -/
theorem exec_of_pointer_error (ready : Ready i s) (pointer : pointerAddress s i = some a) {stop : Stop}
    (h : physical s a .read = .error stop) : exec i s = stop.outcome := by
  rw [exec_of_ready (movesBlock_of_pointerAddress pointer) ready, blockStart, pointer]
  simp only [memRead_of_physical_error h, error_bind]
  rfl

theorem blockStart_of_blockAt (h : BlockAt i s e) : ∃ u, blockStart i s = .ok (e, u) := by
  unfold blockStart
  rcases h with block | ⟨a, p, pointer, word⟩
  · rw [pointerAddress_of_blockAddress block, block]
    exact ⟨s, rfl⟩
  · obtain ⟨phys, hw⟩ := accessible_eq_some.1 word
    have read : memRead s a = .ok (e, s.record (.read p e)) := memRead_ok.2 ⟨p, phys, hw, rfl⟩
    rw [pointer]
    simp only [read, ok_bind]
    exact ⟨_, rfl⟩

/-- A block instruction that passes its checks moves the block it finds. -/
theorem exec_of_blockAt (ready : Ready i s) (h : BlockAt i s e) :
    ∃ n u, Transfers s n u ∧ exec i s = finish (blockTransfer i e u) := by
  obtain ⟨u, start⟩ := blockStart_of_blockAt h
  obtain ⟨n, -, hu⟩ := Transfers.of_blockStart start
  exact ⟨n, u, hu, by rw [exec_of_ready (movesBlock_of_blockAt h) ready, start]; rfl⟩

/-- A block at an odd address is refused (R52). -/
theorem blockTransfer_odd (odd : isEven e = false) (i : Instr) (u : State) :
    blockTransfer i e u = .error (.refusal .oddAddress) := by
  have refused : requireEvenBlock e = .error (.refusal .oddAddress) := require_neg odd
  unfold blockTransfer loadSegmentTable loadAccumulators storeSegmentTable storeAccumulators
  simp only [refused, error_bind, ite_self]

theorem exec_of_blockAt_odd (ready : Ready i s) (h : BlockAt i s e) (odd : isEven e = false) :
    exec i s = .refused .oddAddress := by
  obtain ⟨n, u, -, run⟩ := exec_of_blockAt ready h
  rw [run, blockTransfer_odd odd, finish_refusal]

theorem requireEvenBlock_pos (even : isEven e = true) : requireEvenBlock e = .ok () := require_pos even

/-- A store of an even block writes the words of one unit. -/
theorem blockTransfer_of_storesMemory (stores : storesMemory i = true) (even : isEven e = true) (u : State) :
    ∃ ws : Vector Word (wordsMoved i), blockTransfer i e u = (do
      let t ← writeBlock (wordsMoved i) ws e u
      .ok (t.advance (BitVec.ofNat 16 i.length))) := by
  cases i with
  | tsr | ts | tsInd => exact ⟨u.tr, congrArg (· >>= _) (requireEvenBlock_pos even)⟩
  | fstr | fst | fstInd => exact ⟨u.fpa, congrArg (· >>= _) (requireEvenBlock_pos even)⟩
  | _ => cases stores

/-- A load of an even block reads the words of one unit, which the unit then accepts. -/
theorem blockTransfer_of_not_storesMemory (hb : movesBlock i = true) (loads : storesMemory i = false)
    (even : isEven e = true) (u : State) :
    ∃ accept : Vector Word (wordsMoved i) → State → State, blockTransfer i e u = (do
      let (ws, t) ← readBlock (wordsMoved i) e u
      .ok (accept ws t)) := by
  cases i with
  | tlr | tl | tlInd =>
    exact ⟨fun ws t => (t.setTr ws).advance _, congrArg (· >>= _) (requireEvenBlock_pos even)⟩
  | fldr | fld | fldInd =>
    exact ⟨fun ws t => (acceptOperand ws t).advance _, congrArg (· >>= _) (requireEvenBlock_pos even)⟩
  | wer | rer => cases hb
  | _ => cases loads

theorem wordsMoved_pos (hb : movesBlock i = true) : 0 < wordsMoved i := by
  unfold wordsMoved
  split_ifs with mmu ffp
  · decide
  · decide
  · simp [movesBlock, mmu, ffp] at hb

/-- A load all of whose words can be read when it begins completes (log 11). -/
theorem exec_load_completes (ready : Ready i s) (h : BlockAt i s e) (loads : storesMemory i = false)
    (readable : ∀ k < wordsMoved i, (accessible s (blockAddr e k) .read).isSome = true) : ∃ t, exec i s = .next t := by
  have hb := movesBlock_of_blockAt h
  obtain ⟨n, u, hu, run⟩ := exec_of_blockAt ready h
  have even : isEven e = true := by
    obtain ⟨⟨p, v⟩, first⟩ := Option.isSome_iff_exists.1 (readable 0 (wordsMoved_pos hb))
    obtain ⟨even, -, -⟩ := physical_ok.1 (accessible_eq_some.1 first).1
    simpa [blockAddr] using even
  obtain ⟨accept, transfer⟩ := blockTransfer_of_not_storesMemory hb loads even u
  obtain ⟨ws, t, block⟩ := hu.readBlock_completes readable
  exact ⟨accept ws t, by rw [run, transfer, block]; rfl⟩

/-- A store all of whose words can be stored when it begins completes (log 11). -/
theorem exec_store_completes (ready : Ready i s) (h : BlockAt i s e) (stores : storesMemory i = true)
    (canStore : ∀ k < wordsMoved i, (storable s (blockAddr e k)).isSome = true) : ∃ t, exec i s = .next t := by
  obtain ⟨n, u, hu, run⟩ := exec_of_blockAt ready h
  have even : isEven e = true := by
    obtain ⟨p, first⟩ := Option.isSome_iff_exists.1 (canStore 0 (wordsMoved_pos (movesBlock_of_blockAt h)))
    obtain ⟨even, -, -⟩ := physical_ok.1 (storable_eq_some.1 first).1
    simpa [blockAddr] using even
  obtain ⟨ws, transfer⟩ := blockTransfer_of_storesMemory stores even u
  obtain ⟨t, block⟩ := hu.writeBlock_completes canStore ws
  exact ⟨_, by rw [run, transfer, block]; rfl⟩

/-- The first word of a block that cannot be stored stops the instruction (R173). -/
theorem exec_store_stops (ready : Ready i s) (h : BlockAt i s e) (stores : storesMemory i = true)
    (even : isEven e = true) {k : Nat} (hk : k < wordsMoved i)
    (before : ∀ j < k, (storable s (blockAddr e j)).isSome = true) {stop : Stop}
    (bad : StoreStops s (blockAddr e k) stop) : exec i s = stop.outcome := by
  obtain ⟨n, u, hu, run⟩ := exec_of_blockAt ready h
  obtain ⟨ws, transfer⟩ := blockTransfer_of_storesMemory stores even u
  rw [run, transfer, hu.writeBlock_stops hk before bad ws]
  rfl

end

theorem isEven_two_mul (k : Nat) : isEven (BitVec.ofNat 16 (2 * k)) = true := by
  simp only [isEven, BitVec.getLsbD_ofNat, Nat.testBit_zero, Nat.mul_mod_right]
  decide

/-- Every word of a block at an even address has an even address, a block that wraps included (R57). -/
theorem isEven_blockAddr {e : Word} (even : isEven e = true) (k : Nat) : isEven (blockAddr e k) = true := by
  rw [blockAddr, isEven_add (isEven_two_mul k), even]

end Sys2Proof.Machine
end

section
/-! PROOF. The program text never changes, and what has been written stays readable. -/

namespace Sys2Proof.Machine

/-- No step changes a character of the program text (R64, decision D21). -/
theorem step_readByte_text {s t : State} (h : step s = .next t) {a : Nat} (text : inSpans s.config.programText a = true) :
    t.mem.readByte a = s.mem.readByte a := by
  obtain ⟨i, u, completed, rfl⟩ := step_completed h
  obtain ⟨n, v, transfers, mem⟩ := completed.mem
  rw [ioTurn_readByte_text (completed.config ▸ text), mem, transfers.readByte_text text]

/-- Settles O44: neither the stores of an instruction nor the turns change the text, and a store that meets it stops. -/
theorem programTextNeverChanges : Obligations.ProgramTextNeverChanges := by
  refine ⟨fun s t h a => step_readByte_text h, fun i s e k p ready stores block even hk before answer present text => ?_,
    fun s a => ioTurn_readByte_text⟩
  have phys : physical s (blockAddr e k) .write = .ok p := physical_ok.2 ⟨isEven_blockAddr even k, answer, present⟩
  exact exec_store_stops ready block stores even hk before (storeStops_inText phys text)

/-- Settles O50: neither the transfers of an instruction nor the turns take a value away. -/
theorem writtenMemoryStaysReadable : Obligations.WrittenMemoryStaysReadable := by
  intro s t h a written
  obtain ⟨i, u, completed, rfl⟩ := step_completed h
  obtain ⟨n, v, transfers, mem⟩ := completed.mem
  exact ioTurn_isSome (mem ▸ transfers.isSome written)

/-- Settles O49: by the laws of a turn. -/
theorem ioTurnsAreConfined : Obligations.IoTurnsAreConfined := fun s =>
  ⟨ioTurn_quiet, ioTurn_memoryOnly s, ioTurn_events s, fun _ h => ioTurn_readByte (ioMayWrite_eq_false.2 h)⟩

/-- Settles O33: a turn takes no value away and moves no address. -/
theorem blocksCompleteBesideTransfers : Obligations.BlocksCompleteBesideTransfers := fun _ _ ready =>
  ⟨fun _ block => exec_load_completes ready (.inl block), fun _ block => exec_store_completes ready (.inl block),
    fun a p _ pointer word => exec_load_completes ready (.inr ⟨a, p, pointer, word⟩),
    fun a p _ pointer word => exec_store_completes ready (.inr ⟨a, p, pointer, word⟩)⟩

end Sys2Proof.Machine
end

section
/-! PROOF. Addresses: where an odd one and a fetch stop, the sums, and the narrow footprint. -/

namespace Sys2Proof.Machine

/-- Settles O29: the block, its pointer and the fetch each check their address. -/
theorem oddAddressesAreRefused : Obligations.OddAddressesAreRefused := fun _ _ =>
  ⟨fun _ ready block odd => exec_of_blockAt_odd ready (.inl block) odd,
    fun _ ready pointer odd => exec_of_pointer_error ready pointer (physical_odd odd),
    fun a p _ ready pointer word odd => exec_of_blockAt_odd ready (.inr ⟨a, p, pointer, word⟩) odd,
    step_odd⟩

/-- Settles O10: by the checks of `physical` in their order, then the reading of the word. -/
theorem fetchStops : Obligations.FetchStops := by
  refine fun s => ⟨step_odd, fun even fault => step_of_physical_error (physical_untranslated even fault),
    fun p even answer absent => step_of_physical_error (physical_absent even answer absent),
    fun p even answer present unwritten => ?_, fun p w => step_pcWrap⟩
  have phys : physical s s.pc .fetch = .ok p := physical_ok.2 ⟨even, answer, present⟩
  refine step_of_fetchWord_error (stop := .fault (.unwrittenMemory p)) ?_
  rw [fetchWord, phys, ok_bind, readPhysical_unwritten unwritten]

/-- Settles O34: by the sums of bit vectors; twice a number is even. -/
theorem addressSumsWrap : Obligations.AddressSumsWrap := by
  intro s r2 m e k hk
  refine ⟨?_, ?_, fun even => isEven_blockAddr even k⟩
  · rw [eaDirect]
    split_ifs
    · rfl
    · exact BitVec.toNat_add m (s.reg r2)
  · rw [blockAddr, BitVec.toNat_add, BitVec.toNat_ofNat, Nat.add_mod_mod]

/-- The two fields of a second control word make it up (R116). -/
theorem cw2_toNat (cw2 : Word) : cw2.toNat = 2 * (cw2WordAddress cw2).toNat + (cw2RightHand cw2).toNat := by
  have right : (cw2RightHand cw2).toNat = cw2.toNat / 2 ^ 0 % 2 := Nat.toNat_testBit cw2.toNat 0
  rw [right, cw2WordAddress, BitVec.extractLsb'_toNat, Nat.shiftRight_one]
  have := cw2.isLt
  omega

theorem toNat_append_eq_add {m n : Nat} (x : BitVec m) (y : BitVec n) : (x ++ y).toNat = 2 ^ n * x.toNat + y.toNat := by
  rw [BitVec.toNat_append, ← Nat.shiftLeft_add_eq_or_of_lt y.isLt, Nat.shiftLeft_eq, Nat.mul_comm]

/-- The start address of a transfer in plain arithmetic: its extension above the word address and the character (R117). -/
theorem transferStart_eq (cw1 cw2 : Word) :
    transferStart cw1 cw2 = 2 ^ 16 * (cw1Extension cw1).toNat + 2 * (cw2WordAddress cw2).toNat +
      (!cw1WordMode cw1 && cw2RightHand cw2).toNat := by
  rw [transferStart, toNat_append_eq_add, toNat_append_eq_add, BitVec.toNat_ofBool]
  omega

/-- Settles O19: by the plain form of the start address; a unit is one character or two. -/
theorem narrowTransferFootprint : Obligations.NarrowTransferFootprint := by
  intro cw1 cw2 p
  have word := cw2_toNat cw2
  simp only [transferCovers, transferStart_eq, transferSize, Bool.and_eq_true, Bool.not_eq_true', decide_eq_true_eq]
  refine and_congr_right fun _ => ?_
  cases cw1WordMode cw1
  · simp; omega
  · simp; omega

end Sys2Proof.Machine
end

section
/-! PROOF. Translate: any total function is a table of it, and without the MMU no operation observes TR0 to TR15 (R58). -/

namespace Sys2Proof.Machine

/-! ## Translate as a table -/

/-- The arguments of Translate. -/
abbrev TranslateKey := Vector Word 16 × Mode × Word × AccessKind

/-- The arguments that a row answers. -/
def rowKey (row : TranslateRow) : TranslateKey := (row.tr, row.mode, row.addr, row.kind)

/-- The row of `f` for its arguments. -/
def rowOf (f : Vector Word 16 → Mode → Word → AccessKind → Option Nat) : TranslateKey → TranslateRow
  | (tr, mode, addr, kind) => ⟨tr, mode, addr, kind, f tr mode addr kind⟩

theorem finite_translateKey : Finite TranslateKey := by
  have word : Finite Word := .of_injective BitVec.toFin fun _ _ => BitVec.eq_of_toFin_eq
  have mode : Finite Mode := .of_surjective ![.system, .user] fun
    | .system => ⟨0, rfl⟩
    | .user => ⟨1, rfl⟩
  have kind : Finite AccessKind := .of_surjective ![.fetch, .read, .write] fun
    | .fetch => ⟨0, rfl⟩
    | .read => ⟨1, rfl⟩
    | .write => ⟨2, rfl⟩
  have tr : Finite (Vector Word 16) := .of_injective (fun (v : Vector Word 16) (k : Fin 16) => v[k.val]) fun v w same =>
    Vector.ext fun k hk => congrFun same ⟨k, hk⟩
  infer_instance

/-- With the MMU, the first row for the arguments gives the answer. -/
theorem translate_of_find? {c : Config} {tr : Vector Word 16} {mode : Mode} {addr : Word} {kind : AccessKind}
    {row : TranslateRow} (hmmu : c.hasMmu = true)
    (found : (c.translation.find? fun r => rowKey r == (tr, mode, addr, kind)) = some row) :
    translate c tr mode addr kind = row.answer := by
  have sameTest : (fun r : TranslateRow => r.tr == tr && r.mode == mode && r.addr == addr && r.kind == kind) =
      fun r => rowKey r == (tr, mode, addr, kind) := by
    funext r
    simp only [Bool.and_assoc]
    rfl
  simp only [translate, hmmu, if_true, sameTest, found]

/-- Settles O51: the arguments of R58 are finitely many; the table of `f` has a row for each. -/
theorem everyTranslationIsATable : Obligations.EveryTranslationIsATable := by
  intro f
  obtain ⟨keys, mem_keys⟩ := (@Set.finite_univ _ finite_translateKey).exists_finset
  refine ⟨keys.toList.map (rowOf f), fun c hmmu table tr mode addr kind => ?_⟩
  have hk : (tr, mode, addr, kind) ∈ keys.toList := Finset.mem_toList.2 ((mem_keys _).2 (Set.mem_univ _))
  have row : ((keys.toList.map (rowOf f)).find? fun r => rowKey r == (tr, mode, addr, kind)) =
      some (rowOf f (tr, mode, addr, kind)) := find?_map_row (fun _ => rfl) hk
  exact translate_of_find? hmmu (table ▸ row)

/-! ## Without the MMU -/

/-- The state with other TR values where the MMU, which alone observes them, is absent. -/
def State.setUnusedTr (v : Vector Word 16) (s : State) : State := { s with tr := if s.config.hasMmu then s.tr else v }

theorem State.setUnusedTr_eq_setTr {s : State} (h : s.config.hasMmu = false) (v : Vector Word 16) :
    s.setUnusedTr v = s.setTr v := by
  rw [State.setUnusedTr, h]
  rfl

section
variable (v : Vector Word 16)

theorem translate_setUnusedTr (s : State) (addr : Word) (kind : AccessKind) :
    translate s.config (s.setUnusedTr v).tr s.mode addr kind = translate s.config s.tr s.mode addr kind := by
  unfold State.setUnusedTr translate
  cases s.config.hasMmu <;> rfl

theorem physical_setUnusedTr (s : State) (addr : Word) (kind : AccessKind) :
    physical (s.setUnusedTr v) addr kind = physical s addr kind := by
  unfold physical
  rw [← translate_setUnusedTr v s]
  rfl

theorem ioApply_setUnusedTr (s : State) (m : Memory) (l : List (Nat × Byte)) :
    ioApply (s.setUnusedTr v) m l = ioApply s m l := by
  induction l generalizing m with
  | nil => rfl
  | cons c rest ih => exact ih _

theorem ioTurn_setUnusedTr (s : State) : ioTurn (s.setUnusedTr v) = (ioTurn s).setUnusedTr v := by
  unfold ioTurn
  rw [ioApply_setUnusedTr, apply_ite (State.setUnusedTr v)]
  rfl

theorem betweenTransfers_setUnusedTr (n : Nat) (s : State) :
    betweenTransfers n (s.setUnusedTr v) = (betweenTransfers n s).setUnusedTr v := by
  cases n
  · rfl
  · exact ioTurn_setUnusedTr v s

theorem memRead_setUnusedTr (s : State) (addr : Word) :
    memRead (s.setUnusedTr v) addr = mapState (State.setUnusedTr v) <$> memRead s addr := by
  simp only [memRead, physical_setUnusedTr, map_bind]
  rfl

theorem memWrite_setUnusedTr (s : State) (addr w : Word) :
    memWrite (s.setUnusedTr v) addr w = State.setUnusedTr v <$> memWrite s addr w := by
  simp only [memWrite, physical_setUnusedTr, map_bind]
  rfl

theorem readBlock_setUnusedTr (n : Nat) (e : Word) (s : State) :
    readBlock n e (s.setUnusedTr v) = mapState (State.setUnusedTr v) <$> readBlock n e s := by
  induction n with
  | zero => rfl
  | succ n ih =>
    simp only [readBlock, ih, map_bind, bind_map_left, mapState, betweenTransfers_setUnusedTr, memRead_setUnusedTr]
    rfl

theorem writeBlock_setUnusedTr (n : Nat) (ws : Vector Word n) (e : Word) (s : State) :
    writeBlock n ws e (s.setUnusedTr v) = State.setUnusedTr v <$> writeBlock n ws e s := by
  induction n with
  | zero => rfl
  | succ n ih => simp only [writeBlock, ih, map_bind, bind_map_left, betweenTransfers_setUnusedTr, memWrite_setUnusedTr]

theorem acceptOperand_setUnusedTr (ws : Vector Word 3) (s : State) :
    acceptOperand ws (s.setUnusedTr v) = (acceptOperand ws s).setUnusedTr v := by
  unfold acceptOperand
  rw [show fpClass (s.setUnusedTr v).config ws = fpClass s.config ws from rfl]
  cases fpClass s.config ws <;> rfl

theorem loadAccumulators_setUnusedTr (e len : Word) (s : State) :
    loadAccumulators e len (s.setUnusedTr v) = State.setUnusedTr v <$> loadAccumulators e len s := by
  simp only [loadAccumulators, readBlock_setUnusedTr, map_bind, bind_map_left, mapState, acceptOperand_setUnusedTr]
  rfl

theorem storeAccumulators_setUnusedTr (e len : Word) (s : State) :
    storeAccumulators e len (s.setUnusedTr v) = State.setUnusedTr v <$> storeAccumulators e len s := by
  simp only [storeAccumulators, writeBlock_setUnusedTr, map_bind, bind_map_left]
  rfl

theorem blockTransfer_setUnusedTr {i : Instr} (ffp : usesFfp i = true) (e : Word) (s : State) :
    blockTransfer i e (s.setUnusedTr v) = State.setUnusedTr v <$> blockTransfer i e s := by
  cases i with
  | fldr | fld | fldInd => exact loadAccumulators_setUnusedTr v e _ s
  | fstr | fst | fstInd => exact storeAccumulators_setUnusedTr v e _ s
  | _ => cases ffp

theorem blockAddress_setUnusedTr (i : Instr) (s : State) : blockAddress (s.setUnusedTr v) i = blockAddress s i := by
  cases i <;> rfl

theorem pointerAddress_setUnusedTr (i : Instr) (s : State) : pointerAddress (s.setUnusedTr v) i = pointerAddress s i := by
  cases i <;> rfl

theorem blockStart_setUnusedTr (i : Instr) (s : State) :
    blockStart i (s.setUnusedTr v) = mapState (State.setUnusedTr v) <$> blockStart i s := by
  unfold blockStart
  rw [pointerAddress_setUnusedTr, blockAddress_setUnusedTr]
  cases pointerAddress s i with
  | none => rfl
  | some a =>
    simp only [memRead_setUnusedTr, map_bind, bind_map_left, mapState, ioTurn_setUnusedTr]
    rfl

/-- The instructions of the Floating Point Processor do not observe unused TR values. -/
theorem exec_setUnusedTr_of_usesFfp {i : Instr} (ffp : usesFfp i = true) (s : State) :
    exec i (s.setUnusedTr v) = mapNext (State.setUnusedTr v) (exec i s) := by
  have hb : movesBlock i = true := by rw [movesBlock, ffp, Bool.or_true]
  rw [exec_of_movesBlock hb, exec_of_movesBlock hb, ← finish_map]
  simp only [blockStart_setUnusedTr, map_bind, bind_map_left, mapState, blockTransfer_setUnusedTr v ffp]
  rfl

/-- Without the MMU its instructions stop, in whatever state of the registers (R130 steps 1 and 2). -/
theorem blockChecks_without_mmu {i : Instr} (mmu : usesMmu i = true) {s : State} (h : s.config.hasMmu = false) :
    blockChecks i s = .error (if t3Zero i then .refusal .r2ZeroT3 else .fault (.notInstalled s.pc)) := by
  have absent : mmuInstalled s.config = false := by rw [mmuInstalled, h, Bool.and_false]
  cases zero : t3Zero i <;> simp [blockChecks, segmentChecks, zero, mmu, absent]

theorem exec_without_mmu {i : Instr} (mmu : usesMmu i = true) {s : State} (h : s.config.hasMmu = false) :
    exec i s = Stop.outcome (if t3Zero i then .refusal .r2ZeroT3 else .fault (.notInstalled s.pc)) := by
  rw [exec_of_movesBlock (by rw [movesBlock, mmu, Bool.true_or]), blockChecks_without_mmu mmu h, error_bind]
  rfl

theorem exec_setUnusedTr (i : Instr) {s : State} (h : s.config.hasMmu = false) :
    exec i (s.setUnusedTr v) = mapNext (State.setUnusedTr v) (exec i s) := by
  by_cases mmu : usesMmu i = true
  · rw [exec_without_mmu mmu h, exec_without_mmu (s := s.setUnusedTr v) mmu h]
    cases t3Zero i <;> rfl
  · cases i with
    | wer r3 a =>
      simp only [exec, execWer, ← finish_map, map_bind]
      rfl
    | rer r3 a =>
      simp only [exec, execRer, ← finish_map, map_bind]
      rfl
    | fldr | fld | fldInd | fstr | fst | fstInd => exact exec_setUnusedTr_of_usesFfp v rfl s
    | _ => exact absurd rfl mmu

end

/-- Settles O41: other TR values pass every operation unobserved. -/
theorem segmentRegistersMatterOnlyToTheMmu : Obligations.SegmentRegistersMatterOnlyToTheMmu := by
  intro i s v h
  rw [← State.setUnusedTr_eq_setTr h, exec_setUnusedTr v i h]
  cases run : exec i s with
  | next t => exact congrArg _ (State.setUnusedTr_eq_setTr ((exec_completed run).config ▸ h) v)
  | fault | refused => rfl

end Sys2Proof.Machine
end

section
/-! PROOF. The words of a launched program text, along a run of the chip (R64, R191). -/

namespace Sys2Proof.Machine

/-- What every step keeps holds in every state of a run in which no interrupt is taken. -/
theorem followsFrom_keeps {P : State → Prop} (step_keeps : ∀ s t, step s = .next t → P s → P t) {s : State}
    {moves : List (Move × State)} (follows : followsFrom s moves) (inhibited : ∀ m ∈ moves, m.1 = .instruction)
    (hs : P s) : ∀ t ∈ s :: moves.map Prod.snd, P t := by
  induction moves generalizing s with
  | nil => simpa using hs
  | cons m rest ih =>
    obtain ⟨move, u⟩ := m
    obtain rfl : move = .instruction := inhibited _ List.mem_cons_self
    obtain ⟨hstep, follows⟩ := follows
    have later := ih follows (fun m hm => inhibited m (List.mem_cons_of_mem _ hm)) (step_keeps s u hstep hs)
    exact List.forall_mem_cons.2 ⟨hs, later⟩

/-- The second state has the configuration of the first and the characters of its program text. -/
structure SameText (s t : State) : Prop where
  config : t.config = s.config
  readByte : ∀ a, inSpans s.config.programText a = true → t.mem.readByte a = s.mem.readByte a

theorem SameText.step {s t u : State} (h : SameText s t) (hstep : step t = .next u) : SameText s u where
  config := (modeAndConfigurationNeverChange t u hstep).2.trans h.config
  readByte a text := (step_readByte_text hstep (h.config ▸ text)).trans (h.readByte a text)

/-- A declared word reads alike in both states. -/
theorem SameText.readWord {s t : State} (h : SameText s t) {p : Nat} (left : inSpans s.config.programText p = true)
    (right : inSpans s.config.programText (p + 1) = true) : t.mem.readWord p = s.mem.readWord p := by
  simp only [Memory.readWord, h.readByte _ left, h.readByte _ right]

/-- Both characters of a word of the launch are declared as program text. -/
theorem LaunchedAt.inText {l : Launch} {s : State} (h : LaunchedAt l s) {p : Nat} {w : Word} (hw : (p, w) ∈ l.text) :
    inSpans s.config.programText p = true ∧ inSpans s.config.programText (p + 1) = true := by
  have declared : (⟨p, 2⟩ : Span) ∈ s.config.programText := h.declared ▸ List.mem_map.2 ⟨(p, w), hw, rfl⟩
  exact ⟨List.any_eq_true.2 ⟨_, declared, by simp⟩, List.any_eq_true.2 ⟨_, declared, by simp⟩⟩

/-- Settles O55: every step keeps the program text and the configuration. -/
theorem launchedWordsAreFetchedThroughoutTheRun : Obligations.LaunchedWordsAreFetchedThroughoutTheRun := by
  intro l r follows premises t ht addr p w hw even answer
  obtain ⟨launched, inhibited⟩ := premises
  have same : SameText r.start t := followsFrom_keeps (P := SameText r.start) (fun _ _ hstep h => h.step hstep) follows
    inhibited ⟨rfl, fun _ _ => rfl⟩ t ht
  obtain ⟨present, word⟩ := launched.text (p, w) hw
  obtain ⟨left, right⟩ := launched.inText hw
  refine accessible_eq_some.2 ⟨physical_ok.2 ⟨even, answer, ?_⟩, ?_⟩
  · rw [same.config, present]
  · rw [same.readWord left right, word]

end Sys2Proof.Machine
end

section
/-! SUPPORT. First words as fields: what a long and a short word hold (spec/30_encoding.md R81–R86), and which words a row of
either format takes. -/

namespace Sys2Proof

open Sys2Proof.Machine

/-! ## Long words -/

/-- A long word as a number: 128 times source bits 0–8, then MD, r2 and source bit 15 (R81). -/
theorem toNat_longWord (hi : BitVec 9) (md : BitVec 2) (r2 : BitVec 4) (b15 : Bool) :
    (longWord hi md r2 b15).toNat = 128 * hi.toNat + 32 * md.toNat + 2 * r2.toNat + b15.toNat := by
  rw [longWord, toNat_append_eq_add, toNat_append_eq_add, toNat_append_eq_add, BitVec.toNat_ofBool]
  omega

theorem longWord_inj {hi hi' : BitVec 9} {md md' : BitVec 2} {r2 r2' : BitVec 4} {b15 b15' : Bool} :
    longWord hi md r2 b15 = longWord hi' md' r2' b15' ↔ hi = hi' ∧ md = md' ∧ r2 = r2' ∧ b15 = b15' := by
  refine ⟨fun h => ?_, by rintro ⟨rfl, rfl, rfl, rfl⟩; rfl⟩
  have number := congrArg BitVec.toNat h
  rw [toNat_longWord, toNat_longWord] at number
  have := b15.toNat_le
  have := b15'.toNat_le
  have low : b15.toNat = b15'.toNat := by omega
  refine ⟨by bv_omega, by bv_omega, by bv_omega, ?_⟩
  revert low
  cases b15 <;> cases b15' <;> decide

/-- Every word is a long word of some fields. -/
theorem exists_longWord (w : Word) : ∃ hi md r2 b15, w = longWord hi md r2 b15 := by
  refine ⟨w.extractLsb' 7 9, w.extractLsb' 5 2, w.extractLsb' 1 4, w.getLsbD 0, BitVec.eq_of_toNat_eq ?_⟩
  have bit15 : (w.getLsbD 0).toNat = w.toNat / 2 ^ 0 % 2 := Nat.toNat_testBit w.toNat 0
  simp only [toNat_longWord, bit15, BitVec.extractLsb'_toNat, Nat.shiftRight_eq_div_pow]
  have := w.isLt
  omega

/-- A number made of the fields' numbers is the long word of the fields (R81). -/
theorem ofNat_eq_longWord {hi : BitVec 9} {md : BitVec 2} {r2 : RegNum} {b15 : Bool} {n : Nat}
    (h : n = 128 * hi.toNat + 32 * md.toNat + 2 * r2.val + b15.toNat) :
    BitVec.ofNat 16 n = longWord hi md (BitVec.ofFin r2) b15 := by
  have number : (longWord hi md (BitVec.ofFin r2) b15).toNat = n := by rw [toNat_longWord, h]; rfl
  rw [← number, BitVec.ofNat_toNat, BitVec.setWidth_eq]

theorem longWord_and (hi hi' : BitVec 9) (md md' : BitVec 2) (r2 r2' : BitVec 4) (b15 b15' : Bool) :
    longWord hi md r2 b15 &&& longWord hi' md' r2' b15' =
      longWord (hi &&& hi') (md &&& md') (r2 &&& r2') (b15 && b15') := by
  have fields : (hi ++ md ++ r2 ++ BitVec.ofBool b15) &&& (hi' ++ md' ++ r2' ++ BitVec.ofBool b15') =
      (hi &&& hi') ++ (md &&& md') ++ (r2 &&& r2') ++ BitVec.ofBool (b15 && b15') := by
    simp only [BitVec.and_append, BitVec.ofBool_and_ofBool]
  exact fields

/-- The mask of a long row clears r2 and nothing else. -/
theorem longWord_and_longMask (hi : BitVec 9) (md : BitVec 2) (r2 : BitVec 4) (b15 : Bool) :
    longWord hi md r2 b15 &&& longMask = longWord hi md 0#4 b15 := by
  have mask : longMask = longWord (BitVec.allOnes 9) (BitVec.allOnes 2) 0#4 true := rfl
  rw [mask, longWord_and, BitVec.and_allOnes, BitVec.and_allOnes, BitVec.and_zero, Bool.and_true]

@[simp] theorem r2Of_longWord (hi : BitVec 9) (md : BitVec 2) (r2 : RegNum) (b15 : Bool) :
    r2Of (longWord hi md (BitVec.ofFin r2) b15) = r2 := by
  apply Fin.ext
  show ((longWord hi md (BitVec.ofFin r2) b15).extractLsb' 1 4).toNat = (BitVec.ofFin (w := 4) r2).toNat
  rw [BitVec.extractLsb'_toNat, toNat_longWord, Nat.shiftRight_eq_div_pow]
  have := b15.toNat_le
  omega

/-- The words of a long row are the long words with its fields, one for each r2 (R81, R82). -/
theorem longRow_matchesWord {op : Op} {hi : BitVec 9} {md : BitVec 2} {b15 : Bool} {w : Word} :
    (longRow op hi md b15).matchesWord w = true ↔ w = longWord hi md (BitVec.ofFin (r2Of w)) b15 := by
  obtain ⟨hi', md', r2, b15', rfl⟩ := exists_longWord w
  rw [show r2 = BitVec.ofFin (w := 4) r2.toFin from rfl, r2Of_longWord, longWord_inj]
  show (longWord hi' md' _ b15' &&& longMask == longWord hi md 0#4 b15) = true ↔ _
  rw [longWord_and_longMask, beq_iff_eq, longWord_inj]
  simp only [true_and]

theorem longRow_matchesWord_longWord (op : Op) (hi : BitVec 9) (md : BitVec 2) (r2 : RegNum) (b15 : Bool) :
    (longRow op hi md b15).matchesWord (longWord hi md (BitVec.ofFin r2) b15) = true :=
  longRow_matchesWord.2 (by rw [r2Of_longWord])

/-! ## Short words -/

@[simp] theorem leftChar_shortWord (hi : BitVec 8) (a : ExtAddr) : leftChar (shortWord hi a) = hi := leftChar_joinChars hi a

@[simp] theorem rightChar_shortWord (hi : BitVec 8) (a : ExtAddr) : rightChar (shortWord hi a) = a := rightChar_joinChars hi a

/-- Every word is a short word of its two characters. -/
theorem shortWord_leftChar_rightChar (w : Word) : shortWord (leftChar w) (rightChar w) = w := joinChars_left_right w

theorem shortWord_inj {hi hi' : BitVec 8} {a a' : ExtAddr} : shortWord hi a = shortWord hi' a' ↔ hi = hi' ∧ a = a' := by
  refine ⟨fun h => ⟨?_, ?_⟩, by rintro ⟨rfl, rfl⟩; rfl⟩
  · simpa using congrArg leftChar h
  · simpa using congrArg rightChar h

theorem shortWord_and (hi hi' : BitVec 8) (a a' : ExtAddr) :
    shortWord hi a &&& shortWord hi' a' = shortWord (hi &&& hi') (a &&& a') := BitVec.and_append

/-- What the mask 0x80 leaves of an address: its source bit 8. -/
theorem and_0x80_eq_iff (a : ExtAddr) (b : Bool) : a &&& 0x80#8 = (if b then 0x80#8 else 0#8) ↔ a.getLsbD 7 = b := by
  rw [show 0x80#8 = BitVec.twoPow 8 7 from rfl, BitVec.and_twoPow]
  cases a.getLsbD 7 <;> cases b <;> decide

/-- The words of WER: its code outside r3, and source bit 8 = 0 (R85, R86). -/
theorem werRow_matchesWord {e : Encoding} {w : Word} :
    (werRow e).matchesWord w = true ↔ leftChar w &&& ~~~e.r3Field = e.werHi ∧ (rightChar w).getLsbD 7 = false := by
  rw [← and_0x80_eq_iff, ← shortWord_inj, ← shortWord_and, shortWord_leftChar_rightChar]
  exact beq_iff_eq

/-- The words of RER: its code outside r3, and source bit 8 where the parameter fixes it (R85, R86). -/
theorem rerRow_matchesWord {e : Encoding} {w : Word} :
    (rerRow e).matchesWord w = true ↔
      leftChar w &&& ~~~e.r3Field = e.rerHi ∧ ∀ b, e.rerBit8 = some b → (rightChar w).getLsbD 7 = b := by
  unfold rerRow
  cases e.rerBit8 with
  | none =>
    have free : rightChar w &&& 0#8 = 0#8 := BitVec.and_zero
    rw [← shortWord_leftChar_rightChar w]
    simp [Row.matchesWord, shortWord_and, shortWord_inj]
  | some b =>
    simp only [Option.some.injEq, forall_eq']
    rw [← and_0x80_eq_iff, ← shortWord_inj, ← shortWord_and, shortWord_leftChar_rightChar]
    exact beq_iff_eq

/-- The high byte of a long word holds its source bits 0–7. -/
theorem leftChar_longWord (hi : BitVec 9) (md : BitVec 2) (r2 : BitVec 4) (b15 : Bool) :
    leftChar (longWord hi md r2 b15) = hi.extractLsb' 1 8 := by
  apply BitVec.eq_of_toNat_eq
  simp only [leftChar, BitVec.extractLsb'_toNat, toNat_longWord, Nat.shiftRight_eq_div_pow]
  have := b15.toNat_le
  omega

/-- The low byte of a long word begins with its source bit 8. -/
theorem rightChar_longWord_bit8 (hi : BitVec 9) (md : BitVec 2) (r2 : BitVec 4) (b15 : Bool) :
    (rightChar (longWord hi md r2 b15)).getLsbD 7 = hi.getLsbD 0 := by
  have bit8 : (rightChar (longWord hi md r2 b15)).getLsbD 7 = (longWord hi md r2 b15).toNat.testBit 7 := by
    rw [rightChar, BitVec.getLsbD_extractLsb']
    rfl
  rw [bit8, ← BitVec.testBit_toNat, toNat_longWord, Nat.testBit_eq_decide_div_mod_eq,
    Nat.testBit_eq_decide_div_mod_eq, decide_eq_decide]
  have := b15.toNat_le
  omega

/-! ## r3 in the high byte -/

/-- Outside its field, a byte that holds a scattered number is the operation code. -/
theorem or_scatterBits_and_not {mask hi : BitVec 8} (h : hi &&& mask = 0#8) (v : Nat) :
    (hi ||| scatterBits mask v 8) &&& ~~~mask = hi := by
  apply BitVec.eq_of_getLsbD_eq
  intro k hk
  have apart : (hi.getLsbD k && mask.getLsbD k) = false := by rw [← BitVec.getLsbD_and, h, BitVec.getLsbD_zero]
  rw [BitVec.getLsbD_and, BitVec.getLsbD_or, getLsbD_scatterBits _ _ _ hk, BitVec.getLsbD_not]
  revert apart
  cases hi.getLsbD k <;> cases mask.getLsbD k <;> simp [hk]

/-- A byte is its bits outside a mask and the number that its bits under the mask form. -/
theorem and_not_or_scatterBits (mask x : BitVec 8) : x &&& ~~~mask ||| scatterBits mask (gatherBits mask x 8) 8 = x := by
  rw [scatterBits_gatherBits, ← BitVec.and_or_distrib_left, BitVec.or_comm, BitVec.or_not_self, BitVec.and_allOnes]

end Sys2Proof
end

section
/-! SUPPORT. The row of an operation code and the first words of an instruction: what the decoder reads from them, and which
the encoder writes (spec/30_encoding.md R84–R99). -/

namespace Sys2Proof

open Sys2Proof.Machine

/-! ## The rows by operation -/

/-- The row of an operation (R99). -/
def Encoding.row (e : Encoding) : Op → Row
  | .wer => werRow e
  | .rer => rerRow e
  | .tlr => longRow .tlr e.tlB0to8 0b01#2 e.tlB15
  | .tl => longRow .tl e.tlB0to8 0b10#2 e.tlB15
  | .tlInd => longRow .tlInd e.tlB0to8 0b11#2 e.tlB15
  | .tsr => longRow .tsr tsB0to8 0b01#2 true
  | .ts => longRow .ts tsB0to8 0b10#2 true
  | .tsInd => longRow .tsInd tsB0to8 0b11#2 true
  | .fldr => longRow .fldr e.fpB0to8 0b01#2 false
  | .fld => longRow .fld e.fpB0to8 0b10#2 false
  | .fldInd => longRow .fldInd e.fpB0to8 0b11#2 false
  | .fstr => longRow .fstr e.fstB0to8 0b01#2 e.fstB15
  | .fst => longRow .fst e.fstB0to8 0b10#2 e.fstB15
  | .fstInd => longRow .fstInd e.fstB0to8 0b11#2 e.fstB15

/-- The operations in the order of spec/opcode_table.json. -/
def Op.all : List Op :=
  [.wer, .rer, .tlr, .tl, .tlInd, .tsr, .ts, .tsInd, .fldr, .fld, .fldInd, .fstr, .fst, .fstInd]

theorem rows_eq_map (e : Encoding) : rows e = Op.all.map e.row := rfl

theorem row_mem_rows (e : Encoding) (op : Op) : e.row op ∈ rows e := by
  rw [rows_eq_map]
  exact List.mem_map_of_mem (by cases op <;> decide)

@[simp] theorem row_op (e : Encoding) (op : Op) : (e.row op).op = op := by
  cases op with
  | rer =>
    show (rerRow e).op = .rer
    unfold rerRow
    cases e.rerBit8 <;> rfl
  | _ => rfl

/-- A first word belongs to the row of the operation that is found. -/
theorem findRow_eq_row {e : Encoding} {w : Word} {r : Row} (h : findRow e w = some r) :
    r = e.row r.op ∧ (e.row r.op).matchesWord w = true := by
  obtain ⟨mem, matched⟩ := findRow_some h
  rw [rows_eq_map] at mem
  obtain ⟨op, -, rfl⟩ := List.mem_map.1 mem
  rw [row_op]
  exact ⟨rfl, matched⟩

/-- A type T8 operation: its words have the short format (R84). -/
def Op.isShort : Op → Bool
  | .wer | .rer => true
  | .tlr | .tl | .tlInd | .tsr | .ts | .tsInd | .fldr | .fld | .fldInd | .fstr | .fst | .fstInd => false

/-! ## First words -/

/-- The address in the second word of a two-word instruction (R95); 0 where there is none. -/
def Instr.address : Instr → Word
  | .tl _ m | .tlInd _ m | .ts _ m | .tsInd _ m | .fld _ m | .fldInd _ m | .fst _ m | .fstInd _ m => m
  | .wer _ _ | .rer _ _ | .tlr _ | .tsr _ | .fldr _ | .fstr _ => 0#16

/-- The characters of an instruction after its first word. -/
def Instr.laterChars (i : Instr) : List Byte := if i.op.twoWords then wordChars i.address else []

/-- The first word that the encoder gives an instruction. -/
def firstWord (e : Encoding) (i : Instr) : Word := (encode e i).headD 0#16

theorem encodeBytes_eq (e : Encoding) (i : Instr) : encodeBytes e i = wordChars (firstWord e i) ++ i.laterChars := by
  cases i <;> rfl

/-- The word belongs to the instruction's row and its fields are the instruction's operands. -/
structure FirstWord (e : Encoding) (i : Instr) (w : Word) : Prop where
  matched : (e.row i.op).matchesWord w = true
  built : build e i.op w i.address = i

/-- Only the instructions of two words take an operand from the second. -/
theorem build_of_oneWord {op : Op} (one : op.twoWords = false) (e : Encoding) (w m m' : Word) :
    build e op w m = build e op w m' := by
  cases op with
  | tl | tlInd | ts | tsInd | fld | fldInd | fst | fstInd => cases one
  | _ => rfl

/-- An instruction decodes from its first word and the characters that follow (R99). -/
theorem FirstWord.decode {e : Encoding} {i : Instr} {w : Word} (h : FirstWord e i w) (he : e.disjoint = true)
    (rest : List Byte) : decode e (wordChars w ++ i.laterChars ++ rest) = .ok (i, rest) := by
  have found := findRow_of_matches he (row_mem_rows e i.op) h.matched
  unfold Instr.laterChars
  cases two : i.op.twoWords with
  | false =>
    rw [if_neg Bool.false_ne_true, List.append_nil, decode_oneWord found (by rw [row_op, two]), row_op,
      build_of_oneWord two e w 0#16 i.address, h.built]
  | true => rw [if_pos rfl, decode_twoWords found (by rw [row_op, two]), row_op, h.built]

/-- The first word of every long instruction is one under any parameters (R81–R83). -/
theorem firstWord_of_long {i : Instr} (long : i.op.isShort = false) (e : Encoding) : FirstWord e i (firstWord e i) := by
  cases i with
  | wer => cases long
  | rer => cases long
  | _ => exact ⟨longRow_matchesWord_longWord .., by simp [build, firstWord, encode, Instr.op, Instr.address]⟩

/-- A long instruction decodes from the number of its first word. -/
theorem decode_long {e : Encoding} (he : e.disjoint = true) (i : Instr) (long : i.op.isShort = false) {n : Nat}
    (word : BitVec.ofNat 16 n = firstWord e i) (rest : List Byte) :
    decode e (wordChars (BitVec.ofNat 16 n) ++ i.laterChars ++ rest) = .ok (i, rest) := by
  rw [word]
  exact (firstWord_of_long long e).decode he rest

/-! ## The instruction a row reads -/

@[simp] theorem build_op (e : Encoding) (op : Op) (w m : Word) : (build e op w m).op = op := by
  cases op <;> rfl

theorem build_address {op : Op} (two : op.twoWords = true) (e : Encoding) (w m : Word) : (build e op w m).address = m := by
  cases op with
  | wer | rer | tlr | tsr | fldr | fstr => cases two
  | _ => rfl

/-- Everything the decoder can answer with an instruction: the word of a row, the instruction built from it, and what follows. -/
theorem decode_ok_row {e : Encoding} {i : Instr} {bytes rest : List Byte} (h : decode e bytes = .ok (i, rest)) :
    ∃ w m, (e.row i.op).matchesWord w = true ∧ needsSecondWord e w = i.op.twoWords ∧ i = build e i.op w m ∧
      bytes = wordChars w ++ i.laterChars ++ rest := by
  obtain ⟨r, w, found, ⟨one, built, eq⟩ | ⟨m, two, built, eq⟩⟩ := decode_ok h
  · have op : i.op = r.op := by rw [built, build_op]
    refine ⟨w, 0#16, op ▸ (findRow_eq_row found).2, by rw [needsSecondWord, found, op], op ▸ built, ?_⟩
    rw [eq, Instr.laterChars, op, one, if_neg Bool.false_ne_true, List.append_nil]
  · have op : i.op = r.op := by rw [built, build_op]
    refine ⟨w, m, op ▸ (findRow_eq_row found).2, by rw [needsSecondWord, found, op], op ▸ built, ?_⟩
    rw [eq, Instr.laterChars, op, two, if_pos rfl, built, build_address two]

end Sys2Proof
end

section
/-! PROOF. The words of the spec and of the open parameters decode to what they stand for (R84–R94). -/

namespace Sys2Proof

open Sys2Proof.Machine

/-! ## TSR, TS and TS* -/

/-- The words of TSR, TS, TS* and the pattern that is refused: 0xB801 + 32·MD + 2·r2 (R88, R89). -/
theorem tsWord_eq (md : BitVec 2) (r2 : RegNum) :
    BitVec.ofNat 16 (0xB801 + 32 * md.toNat + 2 * r2.val) = longWord tsB0to8 md (BitVec.ofFin r2) true :=
  ofNat_eq_longWord (by simp [tsB0to8]; omega)

/-- Settles O2: TSR is the long word 1 0111 0000, MD = 01, bit 15 = 1. -/
theorem tsrWordDecodes : Obligations.TsrWordDecodes := by
  intro e r2 rest he
  have decodes (r2 : RegNum) (rest : List Byte) := decode_long he (.tsr r2) rfl (tsWord_eq 0b01#2 r2) rest
  refine ⟨decodes r2 rest, congrArg ([·]) (tsWord_eq 0b01#2 r2).symm, fun w => ?_, decodes 1 [], decodes 15 []⟩
  have row : w &&& 0xFFE1#16 = 0xB821#16 ↔ (longRow .tsr tsB0to8 0b01#2 true).matchesWord w = true := beq_iff_eq.symm
  rw [row]
  constructor
  · intro matched
    exact ⟨r2Of w, (longRow_matchesWord.1 matched).trans (tsWord_eq 0b01#2 (r2Of w)).symm⟩
  · rintro ⟨q, word⟩
    rw [word.trans (tsWord_eq 0b01#2 q)]
    exact longRow_matchesWord_longWord ..

/-! ## Patterns with MD = 00 -/

/-- A short row sees nothing of a word but its high byte and source bit 8 (R85, R86). -/
theorem shortRow_matchesWord_congr {op : Op} (short : op.isShort = true) (e : Encoding) {w w' : Word}
    (left : leftChar w = leftChar w') (bit8 : (rightChar w).getLsbD 7 = (rightChar w').getLsbD 7) :
    (e.row op).matchesWord w = (e.row op).matchesWord w' := by
  rw [Bool.eq_iff_iff]
  cases op with
  | wer =>
    show (werRow e).matchesWord w = true ↔ (werRow e).matchesWord w' = true
    rw [werRow_matchesWord, werRow_matchesWord, left, bit8]
  | rer =>
    show (rerRow e).matchesWord w = true ↔ (rerRow e).matchesWord w' = true
    rw [rerRow_matchesWord, rerRow_matchesWord, left, bit8]
  | _ => cases short

/-- No long row takes a word with MD = 00 (R83). -/
theorem longRow_md_ne_zero {op : Op} (long : op.isShort = false) {e : Encoding} {hi : BitVec 9} {md : BitVec 2}
    {r2 : BitVec 4} {b15 : Bool} (matched : (e.row op).matchesWord (longWord hi md r2 b15) = true) : md ≠ 0#2 := by
  cases op with
  | wer | rer => cases long
  | _ =>
    obtain ⟨-, md_eq, -⟩ := longWord_inj.1 (longRow_matchesWord.1 matched)
    rw [md_eq]
    decide

/-- The TS pattern with MD = 00 belongs to no row: a short row that took it would take TSR as well (R98 (e)). -/
theorem findRow_mdZero {e : Encoding} (he : e.disjoint = true) (r2 : RegNum) :
    findRow e (longWord tsB0to8 0#2 (BitVec.ofFin r2) true) = none := by
  refine Option.eq_none_iff_forall_ne_some.2 fun row found => ?_
  obtain ⟨-, matched⟩ := findRow_eq_row found
  cases short : row.op.isShort with
  | false => exact longRow_md_ne_zero short matched rfl
  | true =>
    have asTsr : (e.row row.op).matchesWord (longWord tsB0to8 0b01#2 (BitVec.ofFin r2) true) = true := by
      rw [← matched]
      refine shortRow_matchesWord_congr short e ?_ ?_
      · rw [leftChar_longWord, leftChar_longWord]
      · rw [rightChar_longWord_bit8, rightChar_longWord_bit8]
    have tsr := findRow_of_matches he (row_mem_rows e .tsr) (longRow_matchesWord_longWord .tsr tsB0to8 0b01#2 r2 true)
    have same := Option.some.inj ((findRow_of_matches he (row_mem_rows e row.op) asTsr).symm.trans tsr)
    have op : row.op = .tsr := by simpa using congrArg Row.op same
    rw [op] at short
    cases short

/-- The TS pattern with MD = 00 is rejected under that name, since its source bit 8 is 0 (R98 (b), (e)). -/
theorem rejectWord_mdZero (e : Encoding) (r2 : RegNum) :
    rejectWord e (longWord tsB0to8 0#2 (BitVec.ofFin r2) true) = .mdZero := by
  have bit8 : isWerBit8 e (longWord tsB0to8 0#2 (BitVec.ofFin r2) true) = false := by
    rw [isWerBit8, beq_eq_false_iff_ne, ← shortWord_leftChar_rightChar (longWord _ _ _ _), shortWord_and, ne_eq, shortWord_inj,
      show (0x80#8 = if true then 0x80#8 else 0#8) from rfl]
    rintro ⟨-, one⟩
    have := (and_0x80_eq_iff _ true).1 one
    rw [rightChar_longWord_bit8] at this
    cases this
  have md : isMdZero e (longWord tsB0to8 0#2 (BitVec.ofFin r2) true) = true := by
    simp [isMdZero, longWord_and_longMask]
  rw [rejectWord, bit8, md, if_neg Bool.false_ne_true, if_pos rfl]

/-- Settles O3: the TS pattern with its four values of MD. -/
theorem tsWordsDecode : Obligations.TsWordsDecode := by
  intro e r2 m rest he
  have ts (r2 : RegNum) (rest : List Byte) := decode_long he (.ts r2 m) rfl (tsWord_eq 0b10#2 r2) rest
  have tsInd (r2 : RegNum) (rest : List Byte) := decode_long he (.tsInd r2 m) rfl (tsWord_eq 0b11#2 r2) rest
  refine ⟨ts r2 rest, tsInd r2 rest, (tsrWordDecodes e r2 rest he).1, ?_, ts 0 [], ts 3 [], tsInd 0 [], tsInd 5 []⟩
  have word : BitVec.ofNat 16 (0xB801 + 2 * r2.val) = longWord tsB0to8 0#2 (BitVec.ofFin r2) true := tsWord_eq 0#2 r2
  rw [word, decode_noRow (findRow_mdZero he r2), rejectWord_mdZero]

/-! ## Words with open parameters -/

/-- Settles O4: the fields of each word add up to its number, for every value of the parameters. -/
theorem openLongWordsDecode : Obligations.OpenLongWordsDecode := by
  intro e r2 m rest he
  refine ⟨?_, ?_, ?_⟩
  · rintro _ rfl
    exact ⟨decode_long he (.fldr r2) rfl (ofNat_eq_longWord rfl) rest,
      decode_long he (.fld r2 m) rfl (ofNat_eq_longWord rfl) rest,
      decode_long he (.fldInd r2 m) rfl (ofNat_eq_longWord rfl) rest⟩
  · rintro _ _ rfl rfl
    exact ⟨decode_long he (.tlr r2) rfl (ofNat_eq_longWord rfl) rest,
      decode_long he (.tl r2 m) rfl (ofNat_eq_longWord rfl) rest,
      decode_long he (.tlInd r2 m) rfl (ofNat_eq_longWord rfl) rest⟩
  · rintro _ _ rfl rfl
    exact ⟨decode_long he (.fstr r2) rfl (ofNat_eq_longWord rfl) rest,
      decode_long he (.fst r2 m) rfl (ofNat_eq_longWord rfl) rest,
      decode_long he (.fstInd r2 m) rfl (ofNat_eq_longWord rfl) rest⟩

/-- Settles O5: by the words that the two short rows take. -/
theorem shortWordsDecode : Obligations.ShortWordsDecode := by
  intro e hi a rest he
  have chars : hi :: a :: rest = wordChars (shortWord hi a) ++ rest := by
    
    rw [wordChars, leftChar_shortWord, rightChar_shortWord]
    rfl
  have built : r3Of e (shortWord hi a) = Fin.ofNat 16 (gatherBits e.r3Field hi 8) := by rw [r3Of, leftChar_shortWord]
  rw [chars]
  constructor
  · intro code bit8
    have first : FirstWord e (.wer (Fin.ofNat 16 (gatherBits e.r3Field hi 8)) a) (shortWord hi a) :=
      ⟨werRow_matchesWord.2 (by rw [leftChar_shortWord, rightChar_shortWord]; exact ⟨code, bit8⟩),
        by simp [build, Instr.op, built]⟩
    exact first.decode he rest
  · intro code bit8
    have first : FirstWord e (.rer (Fin.ofNat 16 (gatherBits e.r3Field hi 8)) a) (shortWord hi a) :=
      ⟨rerRow_matchesWord.2 (by rw [leftChar_shortWord, rightChar_shortWord]; exact ⟨code, bit8⟩),
        by simp [build, Instr.op, built]⟩
    exact first.decode he rest

end Sys2Proof
end

section
/-! PROOF. Decoding and encoding agree under every admissible choice of the open parameters, in both directions, and the lengths
of the instructions (R80, R99). -/

namespace Sys2Proof

open Sys2Proof.Machine

/-! ## The operands of a T8 word -/

/-- What an admissible choice of the parameters gives the T8 rows: r3 has at most four bits, and they are not bits of the two
operation codes (R85). -/
structure Encoding.ShortFields (e : Encoding) : Prop where
  count : maskCount e.r3Field 8 ≤ 4
  werCode : e.werHi &&& e.r3Field = 0#8
  rerCode : e.rerHi &&& e.r3Field = 0#8

theorem Encoding.shortFields_of_valid {e : Encoding} (he : e.valid = true) : e.ShortFields := by
  simp only [Encoding.valid, Bool.and_eq_true, decide_eq_true_eq, beq_iff_eq] at he
  obtain ⟨⟨⟨⟨⟨-, count⟩, wer⟩, rer⟩, -⟩, -⟩ := he
  exact ⟨count, wer, rer⟩

theorem Encoding.disjoint_of_valid {e : Encoding} (he : e.valid = true) : e.disjoint = true := by
  rw [Encoding.valid, Bool.and_eq_true] at he
  exact he.2

/-- With at most four bits in its field, r3 is the number that they form. -/
theorem r3Of_val {e : Encoding} (count : maskCount e.r3Field 8 ≤ 4) (w : Word) :
    (r3Of e w).val = gatherBits e.r3Field (leftChar w) 8 := by
  have fits : gatherBits e.r3Field (leftChar w) 8 < 2 ^ 4 :=
    (gatherBits_lt _ _ _).trans_le (Nat.pow_le_pow_right Nat.two_pos count)
  exact Nat.mod_eq_of_lt fits

/-- r3 is read back from the high byte it is scattered over. -/
theorem r3Of_shortHi {e : Encoding} {hi : BitVec 8} {r3 : RegNum} (code : hi &&& e.r3Field = 0#8)
    (fits : r3.val < 2 ^ maskCount e.r3Field 8) (a : ExtAddr) : r3Of e (shortWord (shortHi e hi r3) a) = r3 := by
  rw [r3Of, leftChar_shortWord, shortHi, gatherBits_or_scatterBits _ _ _ (le_refl 8) code, Nat.mod_eq_of_lt fits]
  exact Fin.ofNat_val_eq_self r3

/-- A T8 word is the one that the encoder makes of its operation code and its operands. -/
theorem shortWord_r3Of {e : Encoding} (count : maskCount e.r3Field 8 ≤ 4) {hi : BitVec 8} {w : Word}
    (code : leftChar w &&& ~~~e.r3Field = hi) : shortWord (shortHi e hi (r3Of e w)) (rightChar w) = w := by
  rw [shortHi, r3Of_val count, ← code, and_not_or_scatterBits, shortWord_leftChar_rightChar]

/-! ## The instructions that have a word -/

theorem admits_wer {e : Encoding} {r3 : RegNum} {a : ExtAddr} :
    e.admits (.wer r3 a) = true ↔ r3.val < 2 ^ maskCount e.r3Field 8 ∧ a.getLsbD 7 = false := by
  simp only [Encoding.admits, werBit8Clear, Bool.and_eq_true, decide_eq_true_eq, Bool.not_eq_true']

theorem admits_rer {e : Encoding} {r3 : RegNum} {a : ExtAddr} :
    e.admits (.rer r3 a) = true ↔
      r3.val < 2 ^ maskCount e.r3Field 8 ∧ ∀ b, e.rerBit8 = some b → a.getLsbD 7 = b := by
  unfold Encoding.admits
  cases e.rerBit8 <;> simp

/-- The encoder's word belongs to the row of the instruction and holds its operands. -/
theorem firstWord_of_admits {e : Encoding} (short : e.ShortFields) {i : Instr} (hi : e.admits i = true) :
    FirstWord e i (firstWord e i) := by
  cases i with
  | wer r3 a =>
    obtain ⟨fits, bit8⟩ := admits_wer.1 hi
    constructor
    · refine werRow_matchesWord.2 ⟨?_, ?_⟩
      · exact (congrArg (· &&& _) (leftChar_shortWord _ _)).trans (or_scatterBits_and_not short.werCode r3.val)
      · exact (congrArg (·.getLsbD 7) (rightChar_shortWord _ _)).trans bit8
    · exact congrArg₂ Instr.wer (r3Of_shortHi short.werCode fits a) (rightChar_shortWord _ _)
  | rer r3 a =>
    obtain ⟨fits, bit8⟩ := admits_rer.1 hi
    constructor
    · refine rerRow_matchesWord.2 ⟨?_, fun b hb => ?_⟩
      · exact (congrArg (· &&& _) (leftChar_shortWord _ _)).trans (or_scatterBits_and_not short.rerCode r3.val)
      · exact (congrArg (·.getLsbD 7) (rightChar_shortWord _ _)).trans (bit8 b hb)
    · exact congrArg₂ Instr.rer (r3Of_shortHi short.rerCode fits a) (rightChar_shortWord _ _)
  | _ => exact firstWord_of_long rfl e

/-- What is built from a word of the operation's row has a word. -/
theorem admits_build {e : Encoding} (short : e.ShortFields) {op : Op} {w : Word}
    (matched : (e.row op).matchesWord w = true) (m : Word) : e.admits (build e op w m) = true := by
  have fits : (r3Of e w).val < 2 ^ maskCount e.r3Field 8 := r3Of_val short.count w ▸ gatherBits_lt _ _ _
  cases op with
  | wer => exact admits_wer.2 ⟨fits, (werRow_matchesWord.1 matched).2⟩
  | rer => exact admits_rer.2 ⟨fits, (rerRow_matchesWord.1 matched).2⟩
  | _ => rfl

/-- The encoder gives back the word of a row that an instruction was built from. -/
theorem firstWord_build {e : Encoding} (short : e.ShortFields) {op : Op} {w : Word}
    (matched : (e.row op).matchesWord w = true) (m : Word) : firstWord e (build e op w m) = w := by
  cases op with
  | wer => exact shortWord_r3Of short.count (werRow_matchesWord.1 matched).1
  | rer => exact shortWord_r3Of short.count (rerRow_matchesWord.1 matched).1
  | _ => exact (longRow_matchesWord.1 matched).symm

/-! ## The round trips -/

/-- Settles O6: the rows are disjoint, so the row of the encoder's word is the one that is found. -/
theorem decodeOfEncode : Obligations.DecodeOfEncode := by
  intro e i rest he hi
  rw [encodeBytes_eq]
  exact (firstWord_of_admits (e.shortFields_of_valid he) hi).decode (e.disjoint_of_valid he) rest

/-- Settles O7: each bit of a word is bound by its row or is a bit of an operand. -/
theorem encodeOfDecode : Obligations.EncodeOfDecode := by
  intro e i bytes rest he decoded
  have short := e.shortFields_of_valid he
  obtain ⟨w, m, matched, -, built, rfl⟩ := decode_ok_row decoded
  refine ⟨built ▸ admits_build short matched m, ?_⟩
  have first : firstWord e i = w := (congrArg (firstWord e) built).trans (firstWord_build short matched m)
  rw [encodeBytes_eq, first]

/-! ## Lengths -/

/-- The first word and what follows it are as long as the instruction (R80). -/
theorem length_eq_laterChars (i : Instr) : i.length = 2 + i.laterChars.length := by
  rw [Instr.length, Instr.laterChars]
  cases i.op.twoWords <;> rfl

/-- Settles O8: by the characters that the decoder consumes; the lengths by the operation. -/
theorem instructionsHaveOneOrTwoWords : Obligations.InstructionsHaveOneOrTwoWords := by
  refine ⟨fun e i bytes rest decoded => ?_, fun r a m => ?_⟩
  · obtain ⟨w, m, -, -, -, rfl⟩ := decode_ok_row decoded
    rw [length_eq_laterChars, List.length_append, List.length_append]
    rfl
  · simp [Instr.length, Instr.op, Op.twoWords]

/-- Settles O1: under the launch's parameters, whose rows are disjoint, by what holds under any. -/
theorem wordsOfTheSpecDecode : Obligations.WordsOfTheSpecDecode := by
  have he : launchEncoding.disjoint = true := by decide
  obtain ⟨-, -, -, tsr1, tsr15⟩ := tsrWordDecodes launchEncoding 0 [] he
  obtain ⟨-, -, -, mdZero, -, ts3, -, -⟩ := tsWordsDecode launchEncoding 0 0x0010#16 [] he
  obtain ⟨-, -, -, -, -, -, tsInd0, tsInd5⟩ := tsWordsDecode launchEncoding 0 0x0600#16 [] he
  exact ⟨tsr1, tsr15, ts3, tsInd0, tsInd5, mdZero, by decide⟩

end Sys2Proof
end

section
/-! PROOF. A step runs the instruction that is decoded at pc, and refuses a first word of no row (R98, R99, R170). -/

namespace Sys2Proof.Machine

theorem wordChars_inj {w v : Word} : wordChars w = wordChars v ↔ w = v := by
  refine ⟨fun h => ?_, congrArg wordChars⟩
  obtain ⟨left, right⟩ : leftChar w = leftChar v ∧ rightChar w = rightChar v := by simpa [wordChars] using h
  rw [← joinChars_left_right w, left, right, joinChars_left_right]

/-- What follows the first word of an instruction, and how the first word alone says it (R99). -/
theorem needsSecondWord_of_decode {e : Encoding} {w : Word} {later rest : List Byte} {i : Instr}
    (h : decode e (wordChars w ++ later) = .ok (i, rest)) :
    needsSecondWord e w = i.op.twoWords ∧ later = i.laterChars ++ rest := by
  obtain ⟨v, m, -, needs, -, bytes⟩ := decode_ok_row h
  rw [List.append_assoc] at bytes
  obtain ⟨chars, laterEq⟩ := List.append_inj bytes rfl
  obtain rfl := wordChars_inj.1 chars
  exact ⟨needs, laterEq⟩

theorem laterChars_eq_nil {i : Instr} : i.laterChars = [] ↔ i.op.twoWords = false := by
  rw [Instr.laterChars]
  cases i.op.twoWords <;> simp [wordChars]

theorem fetchWord_of_accessible {s : State} {addr : Word} {p : Nat} {w : Word}
    (h : accessible s addr .fetch = some (p, w)) : fetchWord s addr = .ok w := fetchWord_ok.2 ⟨p, accessible_eq_some.1 h⟩

theorem step_of_fetchInstr {s : State} {i : Instr} (h : fetchInstr s = .ok i) : step s = afterInstr (exec i s) := by
  rw [step, h]

/-- Settles O9: the first word alone says how many words are fetched, and it says what the decoder reads. -/
theorem stepRunsTheDecodedInstruction : Obligations.StepRunsTheDecodedInstruction := by
  refine fun s i => ⟨fun p w fetched decoded => ?_, fun p w q m noWrap fetched second decoded => ?_, fun t h => ?_,
    fun t h quiet => ?_, fun f h => ?_, fun r h => ?_⟩
  · have one : needsSecondWord s.config.encoding w = false := by
      obtain ⟨needs, later⟩ := needsSecondWord_of_decode (later := []) decoded
      rw [needs, ← laterChars_eq_nil, ← List.append_nil i.laterChars, ← later]
    have bytes := fetchBytes_ok.2 ⟨w, fetchWord_of_accessible fetched, .inl ⟨one, rfl⟩⟩
    exact step_of_fetchInstr (fetchInstr_ok.2 ⟨_, [], bytes, decoded⟩)
  · have two : needsSecondWord s.config.encoding w = true := by
      obtain ⟨needs, later⟩ := needsSecondWord_of_decode decoded
      rw [needs, ← Bool.not_eq_false, ← laterChars_eq_nil]
      intro none
      rw [none] at later
      cases later
    have bytes := fetchBytes_ok.2
      ⟨w, fetchWord_of_accessible fetched, .inr ⟨two, noWrap, m, fetchWord_of_accessible second, rfl⟩⟩
    exact step_of_fetchInstr (fetchInstr_ok.2 ⟨_, [], bytes, decoded⟩)
  · rw [h, afterInstr]
  · rw [h, afterInstr, ioTurn_quiet quiet]
  · rw [h, afterInstr]
  · rw [h, afterInstr]

/-- A first word of no row is refused under the name that the decoder rejects it by (R98, R171). -/
theorem step_noRow {s : State} {p : Nat} {w : Word} (fetched : accessible s s.pc .fetch = some (p, w))
    (noRow : findRow s.config.encoding w = none) :
    step s = .refused (Reject.refusal (rejectWord s.config.encoding w)) := by
  have one : needsSecondWord s.config.encoding w = false := by rw [needsSecondWord, noRow]
  have bytes := fetchBytes_ok.2 ⟨w, fetchWord_of_accessible fetched, .inl ⟨one, rfl⟩⟩
  have rejected : decode s.config.encoding (wordChars w) = .error (rejectWord s.config.encoding w) := decode_noRow noRow []
  rw [step, fetchInstr, bytes, ok_bind, rejected]
  rfl

/-- Settles O11: by the three names that a word can be rejected by; the TS pattern with MD = 00 belongs to no row. -/
theorem undecodableWordsAreRefused : Obligations.UndecodableWordsAreRefused := by
  refine fun s p w fetched => ⟨fun noRow => ?_, fun r2 he word => ?_⟩
  · rw [step_noRow fetched noRow, rejectWord]
    split_ifs
    · exact .inl rfl
    · exact .inr (.inl rfl)
    · exact .inr (.inr rfl)
  · have md : w = longWord tsB0to8 0#2 (BitVec.ofFin r2) true := word.trans (tsWord_eq 0#2 r2)
    rw [step_noRow fetched (md ▸ findRow_mdZero he r2), md, rejectWord_mdZero, Reject.refusal]

end Sys2Proof.Machine
end

section
/-! PROOF. WER and RER: where they stop, what they do when they complete, to which control-word register a WER delivers, and the
fields of the two control words (R110–R116). -/

namespace Sys2Proof.Machine

/-! ## The checks of R110 -/

/-- An I/O Processor number is too large only on a P851M, which has I/O Processor 0 alone (R110). -/
theorem iopNumberOf_le_iopMax {a : ExtAddr} {model : Model} :
    iopNumberOf a ≤ iopMax model ↔ (model = .p851m → iopNumberOf a = 0) := by
  have three : iopNumberOf a < 2 ^ 3 := (a.extractLsb' 4 3).isLt
  cases model with
  | p851m => simp [iopMax]
  | p852m | p856m | p857m => simpa [iopMax] using Nat.le_of_lt_succ three

section
variable {r3 : RegNum} {a : ExtAddr} {s : State}

theorem werBit8Clear_of_bit8 {b : Bool} (bit8 : a.getLsbD 7 = b) : werBit8Clear a = !b := congrArg (!·) bit8

theorem requireSystem_user (user : s.mode = .user) : requireSystem s = .error (.fault (.privilegeViolation s.pc)) := by
  rw [requireSystem, user]
  rfl

theorem requireExternal_absent (absent : extAnswers s.config a = false) :
    requireExternal s a = .error (.refusal .noExternalRegister) := require_neg absent

/-- The checks that WER and RER share: the mode, then the external register (R110 steps 2 and 3). -/
def externalChecks (s : State) (a : ExtAddr) : Result Unit := do
  requireSystem s
  requireExternal s a

theorem externalChecks_user (user : s.mode = .user) (a : ExtAddr) :
    externalChecks s a = .error (.fault (.privilegeViolation s.pc)) := by
  rw [externalChecks, requireSystem_user user, error_bind]

theorem externalChecks_absent (system : s.mode = .system) (absent : extAnswers s.config a = false) :
    externalChecks s a = .error (.refusal .noExternalRegister) := by
  rw [externalChecks, (requireSystem_ok (u := ())).2 system, ok_bind, requireExternal_absent absent]

/-- WER past its checks of r3, of source bit 8 and of the I/O Processor number. -/
theorem exec_wer_of_checks (hr3 : r3 ≠ 0) (bit8 : a.getLsbD 7 = false) (number : iopNumberOf a ≤ iopMax s.config.model) :
    exec (.wer r3 a) s = finish (do
      externalChecks s a
      .ok ((extWrite s a (s.reg r3)).advance 2#16)) := by
  rw [exec, execWer, require_pos (bne_iff_ne.2 hr3), ok_bind, require_pos (werBit8Clear_of_bit8 bit8), ok_bind,
    require_pos (decide_eq_true number), ok_bind, externalChecks, bind_assoc]

/-- RER past its check of r3. -/
theorem exec_rer_of_ne_zero (hr3 : r3 ≠ 0) :
    exec (.rer r3 a) s = finish (do
      externalChecks s a
      let (v, t) := extRead s a
      .ok (((t.setReg r3 v).setCr (crOfExternal v)).advance 2#16)) := by
  rw [exec, execRer, require_pos (bne_iff_ne.2 hr3), ok_bind, externalChecks, bind_assoc]

end

/-- Settles O13: each check that fails stops WER behind those that hold. -/
theorem werStops : Obligations.WerStops := by
  intro r3 a s
  refine ⟨fun zero => ?_, fun hr3 bit8 => ?_, fun hr3 bit8 model number => ?_, fun hr3 bit8 number =>
    ⟨fun user => ?_, fun system absent => ?_⟩⟩
  · rw [exec, execWer, require_neg (bne_eq_false_iff_eq.2 zero), error_bind, finish_refusal]
  · rw [exec, execWer, require_pos (bne_iff_ne.2 hr3), ok_bind, require_neg (werBit8Clear_of_bit8 bit8), error_bind,
      finish_refusal]
  · have tooLarge : ¬ iopNumberOf a ≤ iopMax s.config.model := fun h => number (iopNumberOf_le_iopMax.1 h model)
    rw [exec, execWer, require_pos (bne_iff_ne.2 hr3), ok_bind, require_pos (werBit8Clear_of_bit8 bit8), ok_bind,
      require_neg (decide_eq_false tooLarge), error_bind, finish_refusal]
  · rw [exec_wer_of_checks hr3 bit8 (iopNumberOf_le_iopMax.2 number), externalChecks_user user, error_bind, finish_fault]
  · rw [exec_wer_of_checks hr3 bit8 (iopNumberOf_le_iopMax.2 number), externalChecks_absent system absent, error_bind,
      finish_refusal]

/-- Settles O15: likewise; RER makes no check of source bit 8 or of an I/O Processor number. -/
theorem rerStops : Obligations.RerStops := by
  intro r3 a s
  refine ⟨fun zero => ?_, fun hr3 user => ?_, fun hr3 system absent => ?_⟩
  · rw [exec, execRer, require_neg (bne_eq_false_iff_eq.2 zero), error_bind, finish_refusal]
  · rw [exec_rer_of_ne_zero hr3, externalChecks_user user, error_bind, finish_fault]
  · rw [exec_rer_of_ne_zero hr3, externalChecks_absent system absent, error_bind, finish_refusal]

/-! ## WER and RER complete -/

/-- Settles O12: by everything WER can do. -/
theorem werSendsTheRegister : Obligations.WerSendsTheRegister := fun _ _ _ hr3 bit8 number system answers =>
  execWer_next.2 ⟨hr3, werBit8Clear_of_bit8 bit8, number, system, answers, rfl⟩

/-- CR after RER is source bit 6 above source bit 7 of the value read (R112, log 24). -/
theorem toNat_crOfExternal (v : Word) : (crOfExternal v).toNat = 2 * (v.getLsbD 9).toNat + (v.getLsbD 8).toNat := by
  have bit6 : (v.getLsbD 9).toNat = v.toNat / 2 ^ 9 % 2 := Nat.toNat_testBit v.toNat 9
  have bit7 : (v.getLsbD 8).toNat = v.toNat / 2 ^ 8 % 2 := Nat.toNat_testBit v.toNat 8
  rw [bit6, bit7, crOfExternal, BitVec.extractLsb'_toNat, Nat.shiftRight_eq_div_pow]
  omega

/-- Settles O14: by everything RER can do, with the value of the draw it takes. -/
theorem rerLoadsRegisterAndCondition : Obligations.RerLoadsRegisterAndCondition := by
  intro r3 a s hr3 system answers
  refine ⟨_, Config.extReadValue a s.draws, execRer_next.2 ⟨hr3, system, answers, rfl⟩, rfl, ?_, fun q other => ?_, ?_⟩
  · simp
  · simp [State.reg_setReg_other _ _ other]
  · exact toNat_crOfExternal _

/-! ## The control-word registers -/

/-- After a delivery the addressed register shows the word delivered, every other register what it showed before (R34). -/
theorem controlWord_extWrite (s : State) (a : ExtAddr) (v : Word) (p d : Nat) (second : Bool) :
    (extWrite s a v).controlWord p d second =
      if iopNumberOf a = p ∧ deviceOf a = d ∧ isSecondWord a = second then some v else s.controlWord p d second := by
  rw [State.controlWord, extWrite, State.record_events, List.reverse_append, List.reverse_singleton, List.singleton_append,
    List.findSome?_cons]
  by_cases addressed : iopNumberOf a = p ∧ deviceOf a = d ∧ isSecondWord a = second
  · simp only [if_pos addressed]
  · simp only [if_neg addressed]
    rfl

/-- The address 16p + 2d + c names I/O Processor p, device d and register c (R113). -/
theorem address_fields {p d c : Nat} (hp : p ≤ 7) (hd : d ≤ 7) (hc : c ≤ 1) :
    iopNumberOf (BitVec.ofNat 8 (16 * p + 2 * d + c)) = p ∧ deviceOf (BitVec.ofNat 8 (16 * p + 2 * d + c)) = d ∧
      isSecondWord (BitVec.ofNat 8 (16 * p + 2 * d + c)) = decide (c = 1) := by
  have value : (BitVec.ofNat 8 (16 * p + 2 * d + c)).toNat = 16 * p + 2 * d + c := by
    rw [BitVec.toNat_ofNat]
    omega
  refine ⟨?_, ?_, ?_⟩
  · rw [iopNumberOf, BitVec.extractLsb'_toNat, value, Nat.shiftRight_eq_div_pow]
    omega
  · rw [deviceOf, BitVec.extractLsb'_toNat, value, Nat.shiftRight_eq_div_pow]
    omega
  · rw [isSecondWord, BitVec.getLsbD, value, Nat.testBit_zero, decide_eq_decide]
    omega

/-- Settles O16: the address has the fields p, d and c, and the delivery goes to the register with these fields. -/
theorem werDeliversTheControlWord : Obligations.WerDeliversTheControlWord := by
  intro p d c r3 s t hp hd hc h
  obtain ⟨-, -, -, -, -, rfl⟩ := execWer_next.1 h
  obtain ⟨iop, device, second⟩ := address_fields hp hd hc
  refine ⟨?_, fun p' d' second' other => ?_⟩
  · exact (controlWord_extWrite ..).trans (if_pos ⟨iop, device, second⟩)
  · refine (controlWord_extWrite ..).trans (if_neg ?_)
    rw [iop, device, second]
    rintro ⟨rfl, rfl, rfl⟩
    exact other rfl

/-- The four fields of a first control word make it up (R115). -/
theorem cw1_toNat (cw1 : Word) :
    cw1.toNat = 2 ^ 15 * (cw1WordMode cw1).toNat + 2 ^ 14 * (cw1FromMemory cw1).toNat
      + 2 ^ 12 * (cw1Extension cw1).toNat + cw1Length cw1 := by
  have mode : (cw1WordMode cw1).toNat = cw1.toNat / 2 ^ 15 % 2 := Nat.toNat_testBit cw1.toNat 15
  have direction : (cw1FromMemory cw1).toNat = cw1.toNat / 2 ^ 14 % 2 := Nat.toNat_testBit cw1.toNat 14
  rw [mode, direction, cw1Extension, cw1Length, BitVec.extractLsb'_toNat, BitVec.extractLsb'_toNat,
    Nat.shiftRight_eq_div_pow, Nat.shiftRight_zero]
  have := cw1.isLt
  omega

/-- Settles O18: by the weights of the fields; a length of twelve bits is at most 4095. -/
theorem controlWordFields : Obligations.ControlWordFields :=
  ⟨fun cw1 => ⟨cw1_toNat cw1, Nat.le_of_lt_succ (cw1.extractLsb' 0 12).isLt⟩, cw2_toNat⟩

end Sys2Proof.Machine
end

section
/-! PROOF. The instructions that store nothing leave memory while the I/O Processors are quiet (R66, R118). -/

namespace Sys2Proof.Machine

/-- The I/O Processors are quiet, and memory is that of the first state. -/
structure QuietMemory (s u : State) : Prop where
  quiet : Quiet u
  mem : u.mem = s.mem

section
variable {s u t : State} {i : Instr} {e : Word}

theorem QuietMemory.ioTurn (h : QuietMemory s u) : QuietMemory s (ioTurn u) := by
  rwa [ioTurn_quiet h.quiet]

theorem QuietMemory.read (h : QuietMemory s u) (p : Nat) (v : Word) : QuietMemory s (u.record (.read p v)) :=
  ⟨record_quiet rfl h.quiet, h.mem⟩

theorem QuietMemory.readBlock (h : QuietMemory s u) {n : Nat} {ws : Vector Word n} (block : readBlock n e u = .ok (ws, t)) :
    QuietMemory s t :=
  readBlock_keeps (P := QuietMemory s) (fun _ => QuietMemory.ioTurn) (fun _ p v hu => hu.read p v) block h

/-- An instruction comes to its block by reading its pointer at most. -/
theorem QuietMemory.of_blockStart (quiet : Quiet s) (start : blockStart i s = .ok (e, u)) : QuietMemory s u := by
  have same : QuietMemory s s := ⟨quiet, rfl⟩
  unfold blockStart at start
  split at start
  · obtain ⟨⟨e', t⟩, pointer, start⟩ := bind_ok.1 start
    cases start
    obtain ⟨p, -, -, rfl⟩ := memRead_ok.1 pointer
    exact (same.read p e).ioTurn
  · cases start
    exact same

/-- A block instruction that does not store reads its block, and then writes registers only. -/
theorem QuietMemory.of_blockTransfer (hb : movesBlock i = true) (loads : storesMemory i = false) (h : QuietMemory s u)
    (transfer : blockTransfer i e u = .ok t) : t.mem = s.mem := by
  unfold blockTransfer at transfer
  split_ifs at transfer with tr fpa
  · obtain ⟨-, ws, v, block, rfl⟩ := loadSegmentTable_ok.1 transfer
    exact (h.readBlock block).mem
  · obtain ⟨-, ws, v, block, rfl⟩ := loadAccumulators_ok.1 transfer
    exact (acceptOperand_mem ws v).trans (h.readBlock block).mem
  all_goals
    have stores := storesMemory_of_movesBlock hb (by simpa using tr) (by simpa using fpa)
    exact absurd stores (by simp [loads])

end

/-- Settles O39: WER and RER reach no memory, and the block instructions among them only read it. -/
theorem nonStoringInstructionsLeaveMemory : Obligations.NonStoringInstructionsLeaveMemory := by
  intro i s t quiet loads h
  by_cases hb : movesBlock i = true
  · obtain ⟨e, u, start, transfer⟩ := exec_next_of_movesBlock hb h
    exact (QuietMemory.of_blockStart quiet start).of_blockTransfer hb loads transfer
  · cases i with
    | wer r3 a =>
      obtain ⟨-, -, -, -, -, rfl⟩ := execWer_next.1 h
      rfl
    | rer r3 a =>
      obtain ⟨-, -, -, rfl⟩ := execRer_next.1 h
      rfl
    | _ => exact absurd rfl hb

end Sys2Proof.Machine
end

section
/-! SUPPORT. A block instruction in a quiet state that passes its checks: where its block begins, and the load or the store of the
block with the history it leaves (R68). -/

namespace Sys2Proof.Machine

/-- Add the events of several transfers at the end of the history. -/
def State.recordAll (s : State) (l : List Event) : State := { s with events := s.events ++ l }

section
variable {s t : State} {i : Instr} {e a len : Word} {n p : Nat} {before : List Event}

theorem recordAll_memoryOnly (s : State) (l : List Event) : MemoryOnly s (s.recordAll l) :=
  ⟨rfl, rfl, rfl, rfl, rfl, rfl, rfl, rfl⟩

@[simp] theorem State.recordAll_nil (s : State) : s.recordAll [] = s := by
  simp [State.recordAll]

theorem State.recordAll_singleton (s : State) (ev : Event) : s.recordAll [ev] = s.record ev := rfl

/-- A quiet state comes to the block of the instruction at `e` by recording the events `before`. -/
structure QuietStart (i : Instr) (s : State) (e : Word) (before : List Event) : Prop where
  start : blockStart i s = .ok (e, s.recordAll before)
  quiet : Quiet (s.recordAll before)

/-- Types T3, T4 and T5 come to their block without an event (R97). -/
theorem QuietStart.direct (quiet : Quiet s) (block : blockAddress s i = some e) : QuietStart i s e [] where
  start := by rw [blockStart, pointerAddress_of_blockAddress block, block, State.recordAll_nil]; rfl
  quiet := by rwa [State.recordAll_nil]

/-- Types T6 and T7 come to their block by the read of the pointer (R97). -/
theorem QuietStart.indirect (quiet : Quiet s) (pointer : pointerAddress s i = some a)
    (word : accessible s a .read = some (p, e)) : QuietStart i s e [.read p e] where
  start := by
    obtain ⟨phys, value⟩ := accessible_eq_some.1 word
    have read : memRead s a = .ok (e, s.record (.read p e)) := memRead_ok.2 ⟨p, phys, value, rfl⟩
    have turn : ioTurn (s.record (.read p e)) = s.record (.read p e) := ioTurn_quiet (record_quiet rfl quiet)
    rw [blockStart, pointer]
    simp only [read, ok_bind, turn, State.recordAll_singleton]
  quiet := record_quiet rfl quiet

theorem QuietStart.exec_eq (h : QuietStart i s e before) (hb : movesBlock i = true) (ready : Ready i s) :
    exec i s = finish (blockTransfer i e (s.recordAll before)) := by
  rw [exec_of_ready hb ready, h.start, ok_bind]

/-- A block with a word that can be read begins at an even address. -/
theorem BlockReads.even {ps : Vector Nat (n + 1)} {ws : Vector Word (n + 1)} (h : BlockReads s e ps ws) : isEven e = true := by
  obtain ⟨even, -, -⟩ := physical_ok.1 (accessible_eq_some.1 (h 0)).1
  simpa using even

/-- A block with a word that can be stored begins at an even address. -/
theorem BlockStores.even {ps : Vector Nat (n + 1)} (h : BlockStores s e ps) : isEven e = true := by
  obtain ⟨even, -, -⟩ := physical_ok.1 (storable_eq_some.1 (h 0)).1
  simpa using even

/-- Events alone change nothing that a read needs. -/
theorem BlockReads.recordAll {ps : Vector Nat n} {ws : Vector Word n} (h : BlockReads s e ps ws) (l : List Event) :
    BlockReads (s.recordAll l) e ps ws := fun j => by
  rw [accessible_congr (recordAll_memoryOnly s l) rfl, h j]

/-- Events alone change nothing that a store needs. -/
theorem BlockStores.recordAll {ps : Vector Nat n} (h : BlockStores s e ps) (l : List Event) :
    BlockStores (s.recordAll l) e ps := fun j => by
  rw [storable_congr (recordAll_memoryOnly s l), h j]

/-- A block stored behind the events `before`, and pc moved on. -/
theorem StoredBlock.advance {ps : Vector Nat n} {ws : Vector Word n} (h : StoredBlock (s.recordAll before) t 0#16 [] ps ws)
    (len : Word) : StoredBlock s (t.advance len) len before ps ws where
  frame := by
    have frame := h.frame
    rw [List.append_nil] at frame
    rw [frame]
    simp [State.advance, State.recordAll]
  stored := h.stored
  rest := h.rest

/-- A stored block changes nothing but memory, the history and pc. -/
theorem StoredBlock.memoryOnly {ps : Vector Nat n} {ws : Vector Word n} (h : StoredBlock s t len before ps ws) :
    MemoryOnly (s.advance len) t := by
  rw [h.frame]
  exact ⟨rfl, rfl, rfl, rfl, rfl, rfl, rfl, rfl⟩

/-- The events of a stored block deliver no control word. -/
theorem StoredBlock.quiet {ps : Vector Nat n} {ws : Vector Word n} (h : StoredBlock s t len before ps ws)
    (quiet : Quiet (s.recordAll before)) : Quiet t := by
  rw [h.frame]
  exact append_quiet (writeEvents_quiet ps ws) quiet

/-- TLR, TL and TL* in a quiet state load the block they find, translated with the old TR values (R131, R132, R136). -/
theorem QuietStart.exec_loadTr (h : QuietStart i s e before) (hi : writesTr i = true) (ready : Ready i s)
    {ps : Vector Nat 16} {ws : Vector Word 16} (block : BlockReads s e ps ws) :
    exec i s = .next { s with tr := ws, pc := s.pc + BitVec.ofNat 16 i.length,
                              events := s.events ++ before ++ readEvents ps ws } := by
  have hb : movesBlock i = true := by
    cases i with
    | tlr | tl | tlInd => rfl
    | _ => cases hi
  rw [h.exec_eq hb ready, finish_next, blockTransfer, if_pos hi]
  exact loadSegmentTable_ok.2 ⟨block.even, ws, _, readBlock_quiet h.quiet (block.recordAll before), rfl⟩

/-- TSR, TS and TS* in a quiet state store the segment table to the block they find (R133, R134). -/
theorem QuietStart.exec_storeTr (h : QuietStart i s e before) (mmu : usesMmu i = true) (stores : storesMemory i = true)
    (ready : Ready i s) {ps : Vector Nat 16} (block : BlockStores s e ps) :
    ∃ t, exec i s = .next t ∧ StoredBlock s t (BitVec.ofNat 16 i.length) before ps s.tr := by
  have transfer (u : State) : blockTransfer i e u = storeSegmentTable e (BitVec.ofNat 16 i.length) u := by
    cases i with
    | tsr | ts | tsInd => rfl
    | tlr | tl | tlInd => cases stores
    | _ => cases mmu
  obtain ⟨t, written, stored⟩ := writeBlock_quiet s.tr h.quiet (block.recordAll before)
  refine ⟨t.advance (BitVec.ofNat 16 i.length), ?_, stored.advance _⟩
  rw [h.exec_eq (by rw [movesBlock, mmu, Bool.true_or]) ready, transfer, finish_next]
  exact storeSegmentTable_ok.2 ⟨block.even, t, written, rfl⟩

/-- An instruction of the MMU is ready where R130 steps 1 to 3 let it pass. -/
theorem ready_of_usesMmu (mmu : usesMmu i = true) (register : t3Zero i = false) (model : s.config.model = .p857m)
    (hasMmu : s.config.hasMmu = true) (system : s.mode = .system) : Ready i s where
  register := register
  mmu := fun _ => ⟨model, hasMmu, system⟩
  ffp := fun ffp => by
    cases i with
    | fldr | fld | fldInd | fstr | fst | fstInd => cases mmu
    | _ => cases ffp

end

end Sys2Proof.Machine
end

section
/-! PROOF. The instructions of the MMU: what stops them before their effective address, their loads and stores in a quiet state, and
the round trip of the segment table (R130–R136, S14). -/

namespace Sys2Proof.Machine

/-! ## What stops them -/

section
variable {s : State} {i : Instr} {stop : Stop}

theorem exec_of_blockChecks_error (hb : movesBlock i = true) (h : blockChecks i s = .error stop) :
    exec i s = stop.outcome := by
  rw [exec_of_movesBlock hb, h, error_bind]
  rfl

theorem blockChecks_t3Zero (zero : t3Zero i = true) : blockChecks i s = .error (.refusal .r2ZeroT3) := by
  rw [blockChecks, zero, Bool.not_true, require_false, error_bind]

/-- Past the check of r2 the instructions of the MMU make R130 steps 2 and 3. -/
theorem blockChecks_of_usesMmu (mmu : usesMmu i = true) (register : t3Zero i = false) : blockChecks i s = segmentChecks s := by
  rw [blockChecks, register, Bool.not_false, require_true, ok_bind, if_pos mmu]

theorem mmuInstalled_iff {c : Config} : mmuInstalled c = true ↔ c.model = .p857m ∧ c.hasMmu = true := by
  rw [mmuInstalled, Bool.and_eq_true, beq_iff_eq]

theorem segmentChecks_absent (absent : mmuInstalled s.config = false) :
    segmentChecks s = .error (.fault (.notInstalled s.pc)) := by
  rw [segmentChecks, require_neg absent, error_bind]

theorem segmentChecks_user (installed : mmuInstalled s.config = true) (user : s.mode = .user) :
    segmentChecks s = .error (.fault (.privilegeViolation s.pc)) := by
  rw [segmentChecks, require_pos installed, ok_bind, requireSystem_user user]

end

/-- Settles O22: the first check of R130 that fails stops the instruction. -/
theorem segmentChecksStop : Obligations.SegmentChecksStop := by
  intro i s mmu
  have hb : movesBlock i = true := by rw [movesBlock, mmu, Bool.true_or]
  refine ⟨fun zero => ?_, fun register absent => ?_, fun register model hasMmu user => ?_⟩
  · exact exec_of_blockChecks_error hb (blockChecks_t3Zero zero)
  · refine exec_of_blockChecks_error hb ((blockChecks_of_usesMmu mmu register).trans (segmentChecks_absent ?_))
    exact Bool.eq_false_iff.2 fun installed => absent (mmuInstalled_iff.1 installed)
  · have installed := mmuInstalled_iff.2 ⟨model, hasMmu⟩
    exact exec_of_blockChecks_error hb ((blockChecks_of_usesMmu mmu register).trans (segmentChecks_user installed user))

/-! ## Loads and stores -/

/-- Settles O20: each form is ready, comes to its block, and loads it. -/
theorem segmentLoadsComplete : Obligations.SegmentLoadsComplete := by
  intro s r2 m ps ws model hasMmu system quiet
  have ready {i : Instr} (mmu : usesMmu i = true) (register : t3Zero i = false) : Ready i s :=
    ready_of_usesMmu mmu register model hasMmu system
  refine ⟨fun hr2 block => ?_, fun block => ?_, fun p e word block => ?_⟩
  · have load := (QuietStart.direct quiet rfl).exec_loadTr rfl (ready (i := .tlr r2) rfl (beq_false_of_ne hr2)) block
    rwa [List.append_nil] at load
  · have load := (QuietStart.direct quiet rfl).exec_loadTr rfl (ready (i := .tl r2 m) rfl rfl) block
    rwa [List.append_nil] at load
  · exact (QuietStart.indirect quiet rfl word).exec_loadTr rfl (ready (i := .tlInd r2 m) rfl rfl) block

/-- Settles O21: each form is ready, comes to its block, and stores to it. -/
theorem segmentStoresComplete : Obligations.SegmentStoresComplete := by
  intro s r2 m ps model hasMmu system quiet
  have ready {i : Instr} (mmu : usesMmu i = true) (register : t3Zero i = false) : Ready i s :=
    ready_of_usesMmu mmu register model hasMmu system
  refine ⟨fun hr2 block => ?_, fun block => ?_, fun p e word block => ?_⟩
  · exact (QuietStart.direct quiet rfl).exec_storeTr rfl rfl (ready (i := .tsr r2) rfl (beq_false_of_ne hr2)) block
  · exact (QuietStart.direct quiet rfl).exec_storeTr rfl rfl (ready (i := .ts r2 m) rfl rfl) block
  · exact (QuietStart.indirect quiet rfl word).exec_storeTr rfl rfl (ready (i := .tsInd r2 m) rfl rfl) block

/-! ## The round trip -/

/-- The addresses of the words of a block under the identity translation. -/
def identityBlock (n : Nat) (e : Word) : Vector Nat n := Vector.ofFn fun j => (blockAddr e j.val).toNat

section
variable {s t : State} {e : Word} {n : Nat}

/-- An empty table translates every address to itself (log 7). -/
theorem translate_identity {c : Config} (identity : c.translation = []) (tr : Vector Word 16) (mode : Mode) (addr : Word)
    (kind : AccessKind) : translate c tr mode addr kind = some addr.toNat := by
  rw [translate, identity]
  exact ite_self _

theorem blockStores_identity (identity : s.config.translation = []) (even : isEven e = true)
    (block : ∀ k < n, wordPresent s.config (blockAddr e k).toNat = true ∧ wordInText s.config (blockAddr e k).toNat = false) :
    BlockStores s e (identityBlock n e) := fun j => by
  obtain ⟨present, noText⟩ := block j.val j.isLt
  rw [identityBlock, Vector.getElem_ofFn]
  exact storable_eq_some.2
    ⟨physical_ok.2 ⟨isEven_blockAddr even j.val, translate_identity identity .., present⟩, noText⟩

theorem toNat_mod_two_of_isEven {a : Word} (even : isEven a = true) : a.toNat % 2 = 0 := by
  have bit := a.toNat.toNat_testBit 0
  rw [isEven, Bool.not_eq_true', BitVec.getLsbD] at even
  rw [even] at bit
  simpa using bit.symm

/-- Different words of a block of at most 2^15 words share no character, a block that wraps included (R57). -/
theorem blockAddr_apart (even : isEven e = true) {j k : Nat} (hjk : j < k) (hk : k < 2 ^ 15) :
    apart (blockAddr e j).toNat (blockAddr e k).toNat := by
  have evenJ := toNat_mod_two_of_isEven (isEven_blockAddr even j)
  have evenK := toNat_mod_two_of_isEven (isEven_blockAddr even k)
  simp only [blockAddr, BitVec.toNat_add, BitVec.toNat_ofNat] at evenJ evenK ⊢
  have := e.isLt
  unfold apart
  omega

/-- A block stored under the identity translation reads back. -/
theorem StoredBlock.blockReads_identity {len : Word} {before : List Event} {ws : Vector Word n} (hn : n ≤ 2 ^ 15)
    (h : StoredBlock s t len before (identityBlock n e) ws) (identity : s.config.translation = []) (even : isEven e = true)
    (present : ∀ k < n, wordPresent s.config (blockAddr e k).toNat = true) : BlockReads t e (identityBlock n e) ws := by
  have config : t.config = s.config := h.memoryOnly.config
  intro j
  have stored := h.stored j fun k hjk => by
    simpa only [identityBlock, Vector.getElem_ofFn] using blockAddr_apart even hjk (k.isLt.trans_le hn)
  have phys : physical t (blockAddr e j.val) .read = .ok (identityBlock n e)[j.val] := by
    rw [identityBlock, Vector.getElem_ofFn]
    exact physical_ok.2 ⟨isEven_blockAddr even j.val, translate_identity (config ▸ identity) ..,
      config ▸ present j.val j.isLt⟩
  exact accessible_eq_some.2 ⟨phys, stored⟩

end

/-- Settles O23: the block that TSR has stored is the one that TLR reads. -/
theorem segmentTableRoundTrip : Obligations.SegmentTableRoundTrip := by
  intro s r2 hr2 model hasMmu identity system quiet even block
  obtain ⟨t, store, stored⟩ := (segmentStoresComplete s r2 0#16 (identityBlock 16 (s.reg r2)) model hasMmu system quiet).1
    hr2 (blockStores_identity identity even block)
  have same : MemoryOnly (s.advance 2#16) t := stored.memoryOnly
  have quietT : Quiet t := stored.quiet (by rwa [State.recordAll_nil])
  have reads : BlockReads t (t.reg r2) (identityBlock 16 (s.reg r2)) s.tr := by
    rw [show t.reg r2 = s.reg r2 from same.reg r2]
    exact stored.blockReads_identity (by decide) identity even fun k hk => (block k hk).1
  have load := (segmentLoadsComplete t r2 0#16 (identityBlock 16 (s.reg r2)) s.tr (same.config ▸ model) (same.config ▸ hasMmu)
    (same.mode.trans system) quietT).1 hr2 reads
  refine ⟨t, _, store, load, rfl, same.x, same.cr, same.fpa, rfl, ?_⟩
  calc t.pc + 2#16
      = s.pc + 2#16 + 2#16 := congrArg (· + 2#16) same.pc
    _ = s.pc + 4#16 := BitVec.add_assoc s.pc 2#16 2#16

end Sys2Proof.Machine
end

section
/-! PROOF. A pointer word that cannot be read ends the instruction (R130 step 4, R150, R53). -/

namespace Sys2Proof.Machine

section
variable {s : State} {i : Instr} {a : Word} {p : Nat}

theorem memRead_unwritten (h : physical s a .read = .ok p) (unwritten : s.mem.readWord p = none) :
    memRead s a = .error (.fault (.unwrittenMemory p)) := by
  rw [memRead, h, ok_bind, readPhysical_unwritten unwritten, error_bind]

/-- An instruction whose pointer is not read stops as the read does. -/
theorem exec_of_pointer_memRead_error (ready : Ready i s) (pointer : pointerAddress s i = some a) {stop : Stop}
    (h : memRead s a = .error stop) : exec i s = stop.outcome := by
  rw [exec_of_ready (movesBlock_of_pointerAddress pointer) ready, blockStart, pointer]
  simp only [h, error_bind]
  rfl

end

/-- Settles O32: by the checks of `physical` in their order, then the reading of the word. -/
theorem badPointerStops : Obligations.BadPointerStops := by
  intro i s a ready pointer even
  refine ⟨fun fault => ?_, fun p answer => ⟨fun absent => ?_, fun present unwritten => ?_⟩⟩
  · exact exec_of_pointer_error ready pointer (physical_untranslated even fault)
  · exact exec_of_pointer_error ready pointer (physical_absent even answer absent)
  · have phys : physical s a .read = .ok p := physical_ok.2 ⟨even, answer, present⟩
    exact exec_of_pointer_memRead_error ready pointer (memRead_unwritten phys unwritten)

end Sys2Proof.Machine
end

section
/-! PROOF. The storing instructions leave what lies outside the words they store to while the I/O Processors are quiet (R54, R66). -/

namespace Sys2Proof.Machine

section
variable {s u t : State} {e : Word} {n b : Nat}

/-- The transfers of an instruction deliver no control word. -/
theorem Transfers.quiet (h : Transfers s n u) (quiet : Quiet s) : Quiet u := by
  obtain ⟨l, events, -, noExtWrite⟩ := h.historyGrows
  exact (controlWordSent_append events noExtWrite).trans quiet

/-- The character lies outside the words to which the first `n` words of the block at `e` are sent for writing. -/
def OutsideBlock (s : State) (e : Word) (n b : Nat) : Prop :=
  ∀ k < n, ∀ p, translate s.config s.tr s.mode (blockAddr e k) .write = some p → outsideWord b p

theorem OutsideBlock.congr (h : OutsideBlock s e n b) (same : MemoryOnly s u) : OutsideBlock u e n b := by
  unfold OutsideBlock
  rw [same.config, same.tr, same.mode]
  exact h

/-- A word store changes no character outside the word to which its address is sent. -/
theorem memWrite_readByte {addr v : Word} (h : memWrite s addr v = .ok t)
    (outside : ∀ p, translate s.config s.tr s.mode addr .write = some p → outsideWord b p) :
    t.mem.readByte b = s.mem.readByte b := by
  obtain ⟨p, phys, -, rfl⟩ := memWrite_ok.1 h
  obtain ⟨-, answer, -⟩ := physical_ok.1 phys
  obtain ⟨notLeft, notRight⟩ := outside p answer
  show (s.mem.writeWord p v).readByte b = _
  rw [Memory.readByte_writeWord, if_neg notRight, if_neg notLeft]

/-- While the I/O Processors are quiet a block write changes no character outside its words. -/
theorem writeBlock_readByte {ws : Vector Word n} (quiet : Quiet s) (h : writeBlock n ws e s = .ok t)
    (outside : OutsideBlock s e n b) : t.mem.readByte b = s.mem.readByte b := by
  induction n generalizing t with
  | zero => cases h; rfl
  | succ n ih =>
    obtain ⟨u, block, word⟩ := writeBlock_succ_ok.1 h
    have hu : Transfers s (0 + n) u := Transfers.start.writeBlock block
    rw [betweenTransfers_quiet n (hu.quiet quiet)] at word
    calc t.mem.readByte b
        = u.mem.readByte b := memWrite_readByte word (outside.congr hu.memoryOnly n n.lt_succ_self)
      _ = s.mem.readByte b := ih block fun k hk => outside k (hk.trans n.lt_succ_self)

end

/-- Settles O40: reading a pointer changes no memory, and the block written is the one of the statement. -/
theorem storingInstructionsLeaveTheRest : Obligations.StoringInstructionsLeaveTheRest := by
  intro i s t e quiet stores h blockAt b outside
  obtain ⟨e', u, start, transfer⟩ := exec_next_of_movesBlock (movesBlock_of_blockAt blockAt) h
  obtain ⟨u', found⟩ := blockStart_of_blockAt blockAt
  obtain ⟨rfl, rfl⟩ : e' = e ∧ u = u' := by simpa [start] using found
  have even : isEven e' = true := by
    by_contra odd
    rw [blockTransfer_odd (by simpa using odd)] at transfer
    cases transfer
  obtain ⟨ws, write⟩ := blockTransfer_of_storesMemory stores even u
  rw [write] at transfer
  obtain ⟨v, block, advanced⟩ := bind_ok.1 transfer
  cases advanced
  obtain ⟨n, -, hu⟩ := Transfers.of_blockStart start
  have before := QuietMemory.of_blockStart quiet start
  have outsideU : OutsideBlock u e' (wordsMoved i) b := OutsideBlock.congr outside hu.memoryOnly
  calc v.mem.readByte b
      = u.mem.readByte b := writeBlock_readByte before.quiet block outsideU
    _ = s.mem.readByte b := by rw [before.mem]

end Sys2Proof.Machine
end

section
/-! PROOF. Log 8: the table that stands for `FpClass` can hold any total function, with one row for each operand. -/

namespace Sys2Proof.Machine

theorem finite_vector_word (n : Nat) : Finite (Vector Word n) := by
  have word : Finite Word := .of_injective BitVec.toFin fun _ _ => BitVec.eq_of_toFin_eq
  exact .of_injective (fun (v : Vector Word n) (k : Fin n) => v[k.val]) fun v w same =>
    Vector.ext fun k hk => congrFun same ⟨k, hk⟩

/-- The first row for the operand gives its class (R151). -/
theorem fpClass_of_find? {c : Config} {ws : Vector Word 3} {row : FpClassRow}
    (found : (c.fpClasses.find? fun r => r.operand == ws) = some row) : fpClass c ws = row.fpClass := by
  rw [fpClass, found]

/-- Settles O52: the operands of R151 are finitely many; the table of `f` has a row for each. -/
theorem everyClassificationIsATable : Obligations.EveryClassificationIsATable := by
  intro f
  obtain ⟨operands, mem_operands⟩ := (@Set.finite_univ _ (finite_vector_word 3)).exists_finset
  refine ⟨operands.toList.map fun ws => ⟨ws, f ws⟩, fun c table ws => ?_⟩
  have listed : ws ∈ operands.toList := Finset.mem_toList.2 ((mem_operands ws).2 (Set.mem_univ ws))
  have row := find?_map_row (key := FpClassRow.operand) (row := fun ws => ⟨ws, f ws⟩) (fun _ => rfl) listed
  exact fpClass_of_find? (table ▸ row)

end Sys2Proof.Machine
end

section
/-! PROOF. The instructions of the Floating Point Processor: what stops them before their effective address, their loads and stores
in a quiet state, and the round trip of the accumulators (R150–R156). -/

namespace Sys2Proof.Machine

/-! ## What stops them -/

section
variable {s : State} {i : Instr}

theorem usesMmu_of_usesFfp (ffp : usesFfp i = true) : usesMmu i = false := by
  cases i with
  | fldr | fld | fldInd | fstr | fst | fstInd => rfl
  | _ => cases ffp

theorem movesBlock_of_usesFfp (ffp : usesFfp i = true) : movesBlock i = true := by
  rw [movesBlock, ffp, Bool.or_true]

/-- Past the check of r2 the instructions of the Floating Point Processor make R150 steps 2 and 3. -/
theorem blockChecks_of_usesFfp (ffp : usesFfp i = true) (register : t3Zero i = false) : blockChecks i s = floatChecks s := by
  rw [blockChecks, register, Bool.not_false, require_true, ok_bind, usesMmu_of_usesFfp ffp, if_neg Bool.false_ne_true]

theorem ffpInstalled_iff {c : Config} : ffpInstalled c = true ↔ c.model = .p857m ∧ c.hasFfp = true := by
  rw [ffpInstalled, Bool.and_eq_true, beq_iff_eq]

theorem floatChecks_absent (absent : ffpInstalled s.config = false) :
    floatChecks s = .error (.fault (.notInstalled s.pc)) := by
  rw [floatChecks, require_neg absent, error_bind]

theorem floatChecks_user (installed : ffpInstalled s.config = true) (systemOnly : s.config.fpSystemOnly = true)
    (user : s.mode = .user) : floatChecks s = .error (.fault (.privilegeViolation s.pc)) := by
  have refused : (!s.config.fpSystemOnly || s.mode == .system) = false := by rw [systemOnly, user]; rfl
  rw [floatChecks, require_pos installed, ok_bind, require_neg refused]

end

/-- Settles O27: the first check of R150 that fails stops the instruction. -/
theorem floatChecksStop : Obligations.FloatChecksStop := by
  intro i s ffp
  have hb := movesBlock_of_usesFfp ffp
  refine ⟨fun zero => ?_, fun register absent => ?_, fun register model hasFfp systemOnly user => ?_⟩
  · exact exec_of_blockChecks_error hb (blockChecks_t3Zero zero)
  · refine exec_of_blockChecks_error hb ((blockChecks_of_usesFfp ffp register).trans (floatChecks_absent ?_))
    exact Bool.eq_false_iff.2 fun installed => absent (ffpInstalled_iff.1 installed)
  · have installed := ffpInstalled_iff.2 ⟨model, hasFfp⟩
    exact exec_of_blockChecks_error hb
      ((blockChecks_of_usesFfp ffp register).trans (floatChecks_user installed systemOnly user))

/-! ## Loads and stores -/

section
variable {s t : State} {i : Instr} {e len : Word} {before : List Event} {ps : Vector Nat 3} {ws : Vector Word 3}

/-- An instruction of the Floating Point Processor is ready where R150 steps 1 to 3 let it pass. -/
theorem ready_of_usesFfp (ffp : usesFfp i = true) (register : t3Zero i = false) (model : s.config.model = .p857m)
    (hasFfp : s.config.hasFfp = true) (admitted : s.config.fpSystemOnly = false ∨ s.mode = .system) : Ready i s where
  register := register
  mmu := fun mmu => absurd mmu (by rw [usesMmu_of_usesFfp ffp]; exact Bool.false_ne_true)
  ffp := fun _ => ⟨model, hasFfp, admitted⟩

/-- An operand that is not unnormalized takes no draw (R156). -/
theorem acceptOperand_draws (normal : fpClass s.config ws ≠ .unnormalized) : (acceptOperand ws s).draws = s.draws := by
  unfold acceptOperand
  cases class_ws : fpClass s.config ws with
  | zero | positive | negative => rfl
  | unnormalized => exact absurd class_ws normal

/-- Accepting an operand changes only CR, the accumulators and the count of draws. -/
theorem acceptOperand_frame (ws : Vector Word 3) (s : State) :
    acceptOperand ws s =
      { s with cr := (acceptOperand ws s).cr, fpa := (acceptOperand ws s).fpa, draws := (acceptOperand ws s).draws } := by
  unfold acceptOperand
  cases fpClass s.config ws <;> rfl

/-- The operand accepted after its block has been read, and pc moved on. -/
theorem loadedOperand_acceptOperand (s : State) (len : Word) (before : List Event) (ps : Vector Nat 3) (ws : Vector Word 3) :
    LoadedOperand s ((acceptOperand ws (s.recordAll (before ++ readEvents ps ws))).advance len) len before ps ws where
  frame := by
    rw [acceptOperand_frame, State.recordAll, List.append_assoc]
    rfl
  loaded := fun normal => acceptOperand_fpa normal
  zero := fun h => congrArg crOfClass h
  positive := fun h => congrArg crOfClass h
  negative := fun h => congrArg crOfClass h
  unnormalized := fun h => congrArg crOfClass h

/-- FLDR, FLD and FLD* in a quiet state load the block they find (R152, R153). -/
theorem QuietStart.exec_loadFpa (h : QuietStart i s e before) (hi : writesFpa i = true) (ready : Ready i s)
    (block : BlockReads s e ps ws) :
    exec i s = .next ((acceptOperand ws (s.recordAll (before ++ readEvents ps ws))).advance (BitVec.ofNat 16 i.length)) := by
  obtain ⟨hb, transfer⟩ : movesBlock i = true ∧
      ∀ u, blockTransfer i e u = loadAccumulators e (BitVec.ofNat 16 i.length) u := by
    cases i with
    | fldr | fld | fldInd => exact ⟨rfl, fun u => rfl⟩
    | _ => cases hi
  rw [h.exec_eq hb ready, transfer, finish_next]
  refine loadAccumulators_ok.2 ⟨block.even, ws, _, readBlock_quiet h.quiet (block.recordAll before), ?_⟩
  rw [State.recordAll, ← List.append_assoc]
  rfl

/-- FSTR, FST and FST* in a quiet state store the accumulators to the block they find (R154, R155). -/
theorem QuietStart.exec_storeFpa (h : QuietStart i s e before) (ffp : usesFfp i = true) (stores : storesMemory i = true)
    (ready : Ready i s) (block : BlockStores s e ps) :
    ∃ t, exec i s = .next t ∧ StoredBlock s t (BitVec.ofNat 16 i.length) before ps s.fpa := by
  have transfer (u : State) : blockTransfer i e u = storeAccumulators e (BitVec.ofNat 16 i.length) u := by
    cases i with
    | fstr | fst | fstInd => rfl
    | fldr | fld | fldInd => cases stores
    | _ => cases ffp
  obtain ⟨t, written, stored⟩ := writeBlock_quiet s.fpa h.quiet (block.recordAll before)
  refine ⟨t.advance (BitVec.ofNat 16 i.length), ?_, stored.advance _⟩
  rw [h.exec_eq (movesBlock_of_usesFfp ffp) ready, transfer, finish_next]
  exact storeAccumulators_ok.2 ⟨block.even, t, written, rfl⟩

/-- An aborted load sets CR to 3 and leaves memory and the general registers (R156). -/
theorem LoadedOperand.aborted (h : LoadedOperand s t len before ps ws) (abort : fpClass s.config ws = .unnormalized) :
    t.cr = 3#2 ∧ t.pc = s.pc + len ∧ t.mem = s.mem ∧ t.x = s.x := by
  refine ⟨h.unnormalized abort, ?_⟩
  rw [h.frame]
  exact ⟨rfl, rfl, rfl⟩

end

/-- Settles O24: each form is ready, comes to its block, and loads it. -/
theorem floatLoadsComplete : Obligations.FloatLoadsComplete := by
  intro s r2 m ps ws model hasFfp admitted quiet
  have ready {i : Instr} (ffp : usesFfp i = true) (register : t3Zero i = false) : Ready i s :=
    ready_of_usesFfp ffp register model hasFfp admitted
  refine ⟨fun hr2 block => ⟨_, ?_, loadedOperand_acceptOperand s 2#16 [] ps ws⟩,
    fun block => ⟨_, ?_, loadedOperand_acceptOperand s 4#16 [] ps ws⟩,
    fun p e word block => ⟨_, ?_, loadedOperand_acceptOperand s 4#16 [.read p e] ps ws⟩⟩
  · exact (QuietStart.direct quiet rfl).exec_loadFpa rfl (ready (i := .fldr r2) rfl (beq_false_of_ne hr2)) block
  · exact (QuietStart.direct quiet rfl).exec_loadFpa rfl (ready (i := .fld r2 m) rfl rfl) block
  · exact (QuietStart.indirect quiet rfl word).exec_loadFpa rfl (ready (i := .fldInd r2 m) rfl rfl) block

/-- Settles O25: the loads complete, and what they leave of an unnormalized operand. -/
theorem abortedLoadSetsConditionThree : Obligations.AbortedLoadSetsConditionThree := by
  intro s r2 m ps ws model hasFfp admitted quiet abort
  obtain ⟨fldr, fld, fldInd⟩ := floatLoadsComplete s r2 m ps ws model hasFfp admitted quiet
  refine ⟨fun hr2 block => ?_, fun block => ?_, fun p e word block => ?_⟩
  · exact (fldr hr2 block).imp fun t => And.imp_right (·.aborted abort)
  · exact (fld block).imp fun t => And.imp_right (·.aborted abort)
  · exact (fldInd p e word block).imp fun t => And.imp_right (·.aborted abort)

/-- Settles O26: each form is ready, comes to its block, and stores to it. -/
theorem floatStoresComplete : Obligations.FloatStoresComplete := by
  intro s r2 m ps model hasFfp admitted quiet
  have ready {i : Instr} (ffp : usesFfp i = true) (register : t3Zero i = false) : Ready i s :=
    ready_of_usesFfp ffp register model hasFfp admitted
  refine ⟨fun hr2 block => ?_, fun block => ?_, fun p e word block => ?_⟩
  · exact (QuietStart.direct quiet rfl).exec_storeFpa rfl rfl (ready (i := .fstr r2) rfl (beq_false_of_ne hr2)) block
  · exact (QuietStart.direct quiet rfl).exec_storeFpa rfl rfl (ready (i := .fst r2 m) rfl rfl) block
  · exact (QuietStart.indirect quiet rfl word).exec_storeFpa rfl rfl (ready (i := .fstInd r2 m) rfl rfl) block

/-! ## The round trip -/

/-- No translation takes place: there is no MMU, or its table is empty (R58, log 7). -/
def Untranslated (c : Config) : Prop := c.hasMmu = false ∨ c.translation = []

section
variable {s t : State} {e len : Word} {before : List Event} {n : Nat}

theorem translate_of_untranslated {c : Config} (identity : Untranslated c) (tr : Vector Word 16) (mode : Mode) (addr : Word)
    (kind : AccessKind) : translate c tr mode addr kind = some addr.toNat := by
  rcases identity with noMmu | empty
  · rw [translate, noMmu, if_neg Bool.false_ne_true]
  · exact translate_identity empty tr mode addr kind

/-- Without translation a word of an even block lies at its own address (R57, R58). -/
theorem physical_of_untranslated (identity : Untranslated s.config) (even : isEven e = true) (j : Fin n)
    (present : wordPresent s.config (blockAddr e j).toNat = true) (kind : AccessKind) :
    physical s (blockAddr e j) kind = .ok (identityBlock n e)[j.val] := by
  rw [identityBlock, Vector.getElem_ofFn]
  exact physical_ok.2 ⟨isEven_blockAddr even j, translate_of_untranslated identity .., present⟩

theorem blockStores_of_untranslated (identity : Untranslated s.config) (even : isEven e = true)
    (block : ∀ k < n, wordPresent s.config (blockAddr e k).toNat = true ∧ wordInText s.config (blockAddr e k).toNat = false) :
    BlockStores s e (identityBlock n e) := fun j => by
  obtain ⟨present, noText⟩ := block j j.isLt
  refine storable_eq_some.2 ⟨physical_of_untranslated identity even j present .write, ?_⟩
  rwa [identityBlock, Vector.getElem_ofFn]

/-- A block stored without translation reads back: no word of it overlaps another. -/
theorem StoredBlock.blockReads_of_untranslated {ws : Vector Word n} (hn : n ≤ 2 ^ 15)
    (h : StoredBlock s t len before (identityBlock n e) ws) (identity : Untranslated s.config) (even : isEven e = true)
    (present : ∀ k < n, wordPresent s.config (blockAddr e k).toNat = true) : BlockReads t e (identityBlock n e) ws := by
  have config : t.config = s.config := h.memoryOnly.config
  intro j
  have stored := h.stored j fun k hjk => by
    simpa only [identityBlock, Vector.getElem_ofFn] using blockAddr_apart even hjk (k.isLt.trans_le hn)
  have phys := physical_of_untranslated (config ▸ identity) even j (config ▸ present j j.isLt) .read
  exact accessible_eq_some.2 ⟨phys, stored⟩

end

/-- Settles O28: the block that FSTR has stored is the one that FLDR reads, and it takes no draw. -/
theorem accumulatorRoundTrip : Obligations.AccumulatorRoundTrip := by
  intro s r2 hr2 model hasFfp identity admitted quiet even block normal
  obtain ⟨t, store, stored⟩ := (floatStoresComplete s r2 0#16 (identityBlock 3 (s.reg r2)) model hasFfp admitted quiet).1
    hr2 (blockStores_of_untranslated identity even block)
  have same : MemoryOnly (s.advance 2#16) t := stored.memoryOnly
  have quietT : Quiet t := stored.quiet (by rwa [State.recordAll_nil])
  have reads : BlockReads t (t.reg r2) (identityBlock 3 (s.reg r2)) s.fpa := by
    rw [show t.reg r2 = s.reg r2 from same.reg r2]
    exact stored.blockReads_of_untranslated (by decide) identity even fun k hk => (block k hk).1
  have readyT : Ready (.fldr r2) t := ready_of_usesFfp rfl (beq_false_of_ne hr2) (same.config ▸ model) (same.config ▸ hasFfp)
    (same.config ▸ same.mode ▸ admitted)
  have load := (QuietStart.direct quietT rfl).exec_loadFpa rfl readyT reads
  have normalT : fpClass t.config s.fpa ≠ .unnormalized := same.config ▸ normal
  refine ⟨t, _, store, load, acceptOperand_fpa normalT, ?_, ?_, ?_, ?_, ?_⟩
  · exact (acceptOperand_x ..).trans same.x
  · exact (acceptOperand_tr ..).trans same.tr
  · exact acceptOperand_mem ..
  · exact (acceptOperand_draws (s := t.recordAll _) normalT).trans same.draws
  · rw [State.advance_pc, acceptOperand_pc]
    calc t.pc + 2#16
        = s.pc + 2#16 + 2#16 := congrArg (· + 2#16) same.pc
      _ = s.pc + 4#16 := BitVec.add_assoc s.pc 2#16 2#16

end Sys2Proof.Machine
end

section
/-! PROOF. User mode: the restricted instructions never complete and fault PrivilegeViolation past their earlier checks, and what the
others leave of the state (R172, R177). -/

namespace Sys2Proof.Machine

section
variable {s u t : State} {i : Instr} {n : Nat}

/-! ## The restricted instructions -/

/-- An instruction of the MMU that passes its checks runs in system mode (R130). -/
theorem system_of_blockChecks (mmu : usesMmu i = true) {v : Unit} (h : blockChecks i s = .ok v) : s.mode = .system := by
  obtain ⟨-, segment⟩ := require_bind_ok.1 h
  rw [if_pos mmu] at segment
  exact (segmentChecks_ok.1 segment).2

/-- A restricted instruction completes in system mode only (R177). -/
theorem system_of_restricted_next (hi : restricted i = true) (h : exec i s = .next t) : s.mode = .system := by
  cases i with
  | wer r3 a =>
    obtain ⟨-, -, -, system, -⟩ := execWer_next.1 h
    exact system
  | rer r3 a =>
    obtain ⟨-, system, -⟩ := execRer_next.1 h
    exact system
  | tlr | tl | tlInd | tsr | ts | tsInd =>
    rw [exec_of_movesBlock rfl, finish_next] at h
    obtain ⟨v, checks, -⟩ := bind_ok.1 h
    exact system_of_blockChecks rfl checks
  | fldr | fld | fldInd | fstr | fst | fstInd => cases hi

theorem not_restricted_next_of_user (user : s.mode = .user) (hi : restricted i = true) : exec i s ≠ .next t := fun h =>
  Mode.noConfusion (user.symm.trans (system_of_restricted_next hi h))

/-- A well-formed T3 form names a register other than 0. -/
theorem t3Zero_of_wellFormed (h : i.wellFormed = true) : t3Zero i = false := by
  cases i with
  | tlr r2 | tsr r2 | fldr r2 | fstr r2 => exact beq_false_of_ne (bne_iff_ne.1 h)
  | _ => rfl

/-! ## The other instructions -/

/-- The history has grown by reads and writes of memory only. -/
def GrowsByMemoryEvents (s u : State) : Prop :=
  ∃ l, u.events = s.events ++ l ∧ ∀ ev ∈ l, ∃ p v, ev = .read p v ∨ ev = .write p v

theorem GrowsByMemoryEvents.congr (h : GrowsByMemoryEvents s u) (events : t.events = u.events) : GrowsByMemoryEvents s t :=
  h.imp fun _ => And.imp_left events.trans

theorem GrowsByMemoryEvents.record (h : GrowsByMemoryEvents s u) {ev : Event} (hev : ∃ p v, ev = .read p v ∨ ev = .write p v) :
    GrowsByMemoryEvents s (u.record ev) := by
  obtain ⟨l, events, memory⟩ := h
  refine ⟨l ++ [ev], ?_, List.forall_mem_append.2 ⟨memory, List.forall_mem_singleton.2 hev⟩⟩
  rw [State.record_events, events, List.append_assoc]

/-- The word transfers of an instruction record reads and writes, and the turns beside them nothing (R53, R54). -/
theorem Transfers.growsByMemoryEvents (h : Transfers s n u) : GrowsByMemoryEvents s u := by
  induction h with
  | start => exact ⟨[], by simp⟩
  | turn _ ih => exact ih.congr (ioTurn_events _)
  | read _ p v ih => exact ih.record ⟨p, v, .inl rfl⟩
  | @write _ u' _ p v _ _ ih => exact (ih.congr (t := u'.setMem (u'.mem.writeWord p v)) rfl).record ⟨p, v, .inr rfl⟩

theorem restricted_of_writesTr (h : writesTr i = true) : restricted i = true := by
  cases i with
  | tlr | tl | tlInd => rfl
  | _ => cases h

/-- What user mode protects: the general registers, TR0 to TR15, and the external registers, which no event reaches. -/
structure Confined (s t : State) : Prop where
  x : t.x = s.x
  tr : t.tr = s.tr
  events : GrowsByMemoryEvents s t

theorem Transfers.confined (h : Transfers s n u) : Confined s u :=
  ⟨h.memoryOnly.x, h.memoryOnly.tr, h.growsByMemoryEvents⟩

theorem Confined.congr (h : Confined s u) (x : t.x = u.x) (tr : t.tr = u.tr) (events : t.events = u.events) : Confined s t :=
  ⟨x.trans h.x, tr.trans h.tr, h.events.congr events⟩

/-- An instruction that is not restricted moves words between memory and the accumulators only. -/
theorem Completed.confined (h : Completed s i t) (hi : restricted i = false) : Confined s t := by
  cases h with
  | wer | rer => cases hi
  | loadTr writes => exact absurd (restricted_of_writesTr writes) (Bool.eq_false_iff.1 hi)
  | loadFpa _ _ hu ws =>
    exact hu.confined.congr (acceptOperand_x ws _) (acceptOperand_tr ws _) (acceptOperand_events ws _)
  | store _ _ hu => exact hu.confined.congr rfl rfl rfl

end

/-- Settles O48: a completion needs system mode, and past the earlier checks the one of the mode fails. -/
theorem restrictedInstructionsFaultInUserMode : Obligations.RestrictedInstructionsFaultInUserMode := by
  intro i s user hi
  refine ⟨fun t => not_restricted_next_of_user user hi, fun wellFormed installed number => ?_⟩
  have segment (mmu : usesMmu i = true) : exec i s = .fault (.privilegeViolation s.pc) := by
    obtain ⟨model, hasMmu⟩ := installed mmu
    obtain ⟨-, -, faults⟩ := segmentChecksStop i s mmu
    exact faults (t3Zero_of_wellFormed wellFormed) model hasMmu user
  cases i with
  | wer r3 a =>
    obtain ⟨hr3, bit8⟩ := (Bool.and_eq_true _ _).mp wellFormed
    rw [exec_wer_of_checks (bne_iff_ne.1 hr3) ((Bool.not_eq_true' _).mp bit8) (number r3 a rfl), externalChecks_user user,
      error_bind, finish_fault]
  | rer r3 a =>
    obtain ⟨-, faults, -⟩ := rerStops r3 a s
    exact faults (bne_iff_ne.1 wellFormed) user
  | tlr | tl | tlInd | tsr | ts | tsInd => exact segment rfl
  | fldr | fld | fldInd | fstr | fst | fstInd => cases hi

/-- Settles O47: the instruction that a step in user mode completes is not restricted, and a turn of the I/O Processors records
nothing. -/
theorem userModeIsConfined : Obligations.UserModeIsConfined := by
  intro s t user h
  obtain ⟨mode, config⟩ := modeAndConfigurationNeverChange s t h
  obtain ⟨i, u, -, completes, rfl⟩ := step_next.1 h
  have unrestricted : restricted i = false := by
    by_contra hi
    exact not_restricted_next_of_user user (Bool.eq_true_of_not_eq_false hi) completes
  have turn := ioTurn_memoryOnly u
  obtain ⟨x, tr, events⟩ := ((exec_completed completes).confined unrestricted).congr turn.x turn.tr (ioTurn_events u)
  exact ⟨mode.trans user, x, tr, config, events⟩

end Sys2Proof.Machine
end

section
/-! PROOF. The first word transfer of a block that cannot be made ends the instruction (R173 (6), R53, R54, R64). -/

namespace Sys2Proof.Machine

section
variable {i : Instr} {s u : State} {e addr : Word} {k p : Nat} {stop : Stop}

/-! ## Stores -/

/-- A store whose physical address is not found stops as the search does, whatever the transfers before it. -/
theorem storeStops_of_physical_error (h : physical s addr .write = .error stop) : StoreStops s addr stop := fun _ v hu => by
  rw [memWrite, hu.physical, h, error_bind]

/-! ## Loads -/

/-- The read at the address stops for the same reason after any reads of the instruction while the I/O Processors are quiet. -/
def ReadStops (s : State) (addr : Word) (stop : Stop) : Prop :=
  ∀ u, MemoryOnly s u → u.mem = s.mem → memRead u addr = .error stop

theorem readStops_of_physical_error (h : physical s addr .read = .error stop) : ReadStops s addr stop := fun _ hu _ =>
  memRead_of_physical_error ((hu.physical ..).trans h)

theorem readStops_unwritten (h : physical s addr .read = .ok p) (unwritten : s.mem.readWord p = none) :
    ReadStops s addr (.fault (.unwrittenMemory p)) := fun _ hu mem =>
  memRead_unwritten ((hu.physical ..).trans h) (mem ▸ unwritten)

/-- The first word of a block that cannot be read stops the block (R68). -/
theorem Transfers.readBlock_stops {n len : Nat} (h : Transfers s n u) (same : QuietMemory s u) (hk : k < len)
    (before : ∀ j < k, (accessible s (blockAddr e j) .read).isSome = true) (bad : ReadStops s (blockAddr e k) stop) :
    Machine.readBlock len e u = .error stop := by
  induction len with
  | zero => omega
  | succ len ih =>
    rw [Machine.readBlock]
    rcases Nat.lt_succ_iff_lt_or_eq.1 hk with earlier | rfl
    · rw [ih earlier, error_bind]
    · obtain ⟨ws, t, block⟩ := h.readBlock_completes before
      have sameT := same.readBlock block
      rw [block, ok_bind]
      simp only [betweenTransfers_quiet k sameT.quiet, bad t (h.readBlock block).memoryOnly sameT.mem, error_bind]

/-- The first word of a block that cannot be read stops the instruction (R173). -/
theorem exec_load_stops (ready : Ready i s) (quiet : Quiet s) (block : BlockAt i s e) (loads : storesMemory i = false)
    (even : isEven e = true) (hk : k < wordsMoved i)
    (before : ∀ j < k, (accessible s (blockAddr e j) .read).isSome = true) (bad : ReadStops s (blockAddr e k) stop) :
    exec i s = stop.outcome := by
  have hb := movesBlock_of_blockAt block
  obtain ⟨u, start⟩ := blockStart_of_blockAt block
  obtain ⟨n, -, hu⟩ := Transfers.of_blockStart start
  obtain ⟨accept, transfer⟩ := blockTransfer_of_not_storesMemory hb loads even u
  rw [exec_of_ready hb ready, start]
  show finish (blockTransfer i e u) = _
  rw [transfer, hu.readBlock_stops (QuietMemory.of_blockStart quiet start) hk before bad]
  rfl

end

/-- Settles O31: by the checks of `physical` in their order, then that of the program text. -/
theorem firstBadWriteStops : Obligations.FirstBadWriteStops := by
  intro i s e k ready stores block even hk before
  have stops {stop : Stop} (bad : StoreStops s (blockAddr e k) stop) : exec i s = stop.outcome :=
    exec_store_stops ready block stores even hk before bad
  have evenWord : isEven (blockAddr e k) = true := isEven_blockAddr even k
  refine ⟨fun fault => ?_, fun p answer => ⟨fun absent => ?_, fun present text => ?_⟩⟩
  · exact stops (storeStops_of_physical_error (physical_untranslated evenWord fault))
  · exact stops (storeStops_of_physical_error (physical_absent evenWord answer absent))
  · exact stops (storeStops_inText (physical_ok.2 ⟨evenWord, answer, present⟩) text)

/-- Settles O30: by the checks of `physical` in their order, then the reading of the word, which no read before it changes. -/
theorem firstBadReadStops : Obligations.FirstBadReadStops := by
  intro i s e k ready loads quiet block even hk before
  have stops {stop : Stop} (bad : ReadStops s (blockAddr e k) stop) : exec i s = stop.outcome :=
    exec_load_stops ready quiet block loads even hk before bad
  have evenWord : isEven (blockAddr e k) = true := isEven_blockAddr even k
  refine ⟨fun fault => ?_, fun p answer => ⟨fun absent => ?_, fun present unwritten => ?_⟩⟩
  · exact stops (readStops_of_physical_error (physical_untranslated evenWord fault))
  · exact stops (readStops_of_physical_error (physical_absent evenWord answer absent))
  · exact stops (readStops_unwritten (physical_ok.2 ⟨evenWord, answer, present⟩) unwritten)

end Sys2Proof.Machine
end

section
/-! PROOF. Runs of the chip in which no interrupt is taken: they are runs of the model, and stay in the mode of their launch
(R174, R177, R191). -/

namespace Sys2Proof.Machine

theorem run_succ_of_step {M : Host.Core} {s t : M.State} (h : M.step s = .next t) (k : Nat) : M.run (k + 1) s = M.run k t := by
  rw [Host.Core.run, h]

/-- Without interrupts each move is a step, so that as many steps of the machine lead to the last state. -/
theorem run_of_followsFrom {s : State} {moves : List (Move × State)} (follows : followsFrom s moves)
    (inhibited : ∀ m ∈ moves, m.1 = .instruction) :
    Host.Core.run Sys2Proof.core moves.length s = .next ((moves.map Prod.snd).getLastD s) := by
  induction moves generalizing s with
  | nil => rfl
  | cons m rest ih =>
    obtain ⟨move, t⟩ := m
    obtain rfl : move = .instruction := inhibited _ List.mem_cons_self
    obtain ⟨hstep, follows⟩ := follows
    calc Host.Core.run Sys2Proof.core (rest.length + 1) s
        = Host.Core.run Sys2Proof.core rest.length t := run_succ_of_step (M := Sys2Proof.core) hstep rest.length
      _ = .next ((rest.map Prod.snd).getLastD t) := ih follows fun m hm => inhibited m (List.mem_cons_of_mem _ hm)
      _ = .next ((t :: rest.map Prod.snd).getLastD s) := by rw [List.getLastD_cons]

/-- Settles O54: by induction on the moves of the run. -/
theorem inhibitedRunsAreRunsOfTheModel : Obligations.InhibitedRunsAreRunsOfTheModel := fun _ => run_of_followsFrom

/-- The second state has the mode and the configuration of the first. -/
structure SameModeAndConfig (s t : State) : Prop where
  mode : t.mode = s.mode
  config : t.config = s.config

theorem SameModeAndConfig.step {s t u : State} (h : SameModeAndConfig s t) (hstep : step t = .next u) :
    SameModeAndConfig s u := by
  obtain ⟨mode, config⟩ := modeAndConfigurationNeverChange t u hstep
  exact ⟨mode.trans h.mode, config.trans h.config⟩

/-- Settles O56: every step keeps the mode and the configuration, and the launch fixes them at the start. -/
theorem launchedModeHoldsThroughoutTheRun : Obligations.LaunchedModeHoldsThroughoutTheRun := by
  intro l r follows premises t ht
  obtain ⟨launched, inhibited⟩ := premises
  obtain ⟨mode, config⟩ : SameModeAndConfig r.start t :=
    followsFrom_keeps (P := SameModeAndConfig r.start) (fun _ _ hstep h => h.step hstep) follows inhibited ⟨rfl, rfl⟩ t ht
  have launchMode : t.mode = l.mode := mode.trans launched.mode
  exact ⟨launchMode, config, fun needs => launchMode.trans (launched.system needs)⟩

end Sys2Proof.Machine
end

section
/-! PROOF. The state after reset has no memory written and starts at address 0 (R35, R190). -/

namespace Sys2Proof.Machine

/-- Settles O42: no character has been written at reset, and pc is 0 (log 2, log 3, log 5). -/
theorem resetSatisfiesTheInvariant : Obligations.ResetSatisfiesTheInvariant where
  wf := .nil
  present _ hc := absurd hc List.not_mem_nil
  even := rfl

end Sys2Proof.Machine
end

section
/-! PROOF. The words of a program, read one instruction after another, hold a restricted instruction exactly if the program does
(R95, R99, R177, R191). -/

namespace Sys2Proof.Machine

/-! ## The words of one instruction -/

/-- Whether an instruction is restricted does not depend on its second word (R177). -/
theorem restricted_build (e : Encoding) (op : Op) (w m m' : Word) :
    restricted (build e op w m) = restricted (build e op w m') := by
  cases op <;> rfl

/-- The encoder gives the first word and, in the two-word forms, the address after it (R95). -/
theorem encode_eq (e : Encoding) (i : Instr) :
    encode e i = firstWord e i :: if i.op.twoWords then [i.address] else [] := by
  cases i <;> rfl

section
variable {e : Encoding} {i : Instr} {w : Word}

/-- The rows are disjoint, so an instruction's first word is found in its own row (R99). -/
theorem findRow_of_firstWord (he : e.disjoint = true) (h : FirstWord e i w) : findRow e w = some (e.row i.op) :=
  findRow_of_matches he (row_mem_rows e i.op) h.matched

theorem needsSecondWord_of_firstWord (he : e.disjoint = true) (h : FirstWord e i w) : needsSecondWord e w = i.op.twoWords := by
  simp only [needsSecondWord, findRow_of_firstWord he h, row_op]

theorem restrictedWord_of_firstWord (he : e.disjoint = true) (h : FirstWord e i w) : restrictedWord e w = restricted i := by
  calc restrictedWord e w
      = restricted (build e i.op w 0#16) := by simp only [restrictedWord, findRow_of_firstWord he h, row_op]
    _ = restricted (build e i.op w i.address) := restricted_build ..
    _ = restricted i := by rw [h.built]

end

/-! ## The words of a program -/

section
variable {e : Encoding} {w : Word}

theorem usesRestricted_oneWord (one : needsSecondWord e w = false) (rest : List Word) :
    usesRestricted e (w :: rest) = (restrictedWord e w || usesRestricted e rest) := by
  cases rest with
  | nil => rw [usesRestricted, usesRestricted, Bool.or_false]
  | cons m rest => rw [usesRestricted, one, if_neg Bool.false_ne_true]

/-- The second word of an instruction is passed over (R95). -/
theorem usesRestricted_twoWords (two : needsSecondWord e w = true) (m : Word) (rest : List Word) :
    usesRestricted e (w :: m :: rest) = (restrictedWord e w || usesRestricted e rest) := by
  rw [usesRestricted, two, if_pos rfl]

/-- The reading of the words advances by exactly one instruction (R99). -/
theorem usesRestricted_encode_append {i : Instr} (he : e.valid = true) (hi : e.admits i = true) (rest : List Word) :
    usesRestricted e (encode e i ++ rest) = (restricted i || usesRestricted e rest) := by
  have disjoint := e.disjoint_of_valid he
  have first := firstWord_of_admits (e.shortFields_of_valid he) hi
  have needs := needsSecondWord_of_firstWord disjoint first
  rw [encode_eq, ← restrictedWord_of_firstWord disjoint first]
  cases two : i.op.twoWords with
  | false => exact usesRestricted_oneWord (needs.trans two) rest
  | true => exact usesRestricted_twoWords (needs.trans two) i.address rest

theorem usesRestricted_flatMap_encode (he : e.valid = true) {program : List Instr}
    (admitted : ∀ i ∈ program, e.admits i = true) :
    usesRestricted e (program.flatMap (encode e)) = program.any restricted := by
  induction program with
  | nil => rfl
  | cons i program ih =>
    rw [List.forall_mem_cons] at admitted
    obtain ⟨hi, admitted⟩ := admitted
    rw [List.flatMap_cons, usesRestricted_encode_append he hi, ih admitted, List.any_cons]

end

/-- Settles O57: by induction on the program, since each instruction's words are read as that instruction. -/
theorem needsSystemIffARestrictedInstruction : Obligations.NeedsSystemIffARestrictedInstruction := by
  intro e program l he admitted text
  rw [Launch.needsSystem, text, usesRestricted_flatMap_encode he admitted, List.any_eq_true]

end Sys2Proof.Machine
end
